-- ==== Sys2Proof/Word.lean ====
section
/-! DEFINITION. The bit vectors of the hardware: a bus byte, a bus address, an event word. -/

namespace Sys2Proof

/-- A bus byte, the operand of WRITE, the result of READ (`DATA_W` = 8; rule R3, R40). -/
abbrev Byte := BitVec 8

/-- The address operand of CONNECT (`ADDR_W` = 7, the spec's decision D4; rule R3, R40). -/
abbrev Address := BitVec 7

/-- The event word `EV[9:0]` of rule R42. -/
abbrev EventWord := BitVec 10

end Sys2Proof
end

