-- ==== Sys2Proof/Config.lean ====
section
/-! DEFINITION. The parameters of rule R3 that are no table of the block: the bus address the device is registered at
and the number of instances the system starts with. The spec leaves no result open, so there is no free value here. -/

namespace Sys2Proof.Config

/-- `BUS_ADDRESS` (rules R3, R19, R33, R106): where the host listens for the device. No event compares it (rule R65). -/
def busAddress : Address := 0x70#7

/-- `N_DEVICES` (rules R3, R56): an open parameter whose default is 1. DESIGN CHOICE (log 5): the state after reset
takes the default. The rules hold for every number of instances, and so do the statements. -/
def nDevices : Nat := 1

/-- `HANDLE_BASE` (rules R3, R57): the handle of the first instance. -/
def handleBase : Nat := 0

end Sys2Proof.Config
end

