-- ==== Sys2Proof/Syntax.lean ====
section
/-! DEFINITION. The rows of spec/opcode_table.json, one constructor each, and the two formats their words have. -/

namespace Sys2Proof

/-- What a selector byte names (rule R12): the three values of `selected_register`. -/
inductive Register where
  | productId
  | measurement
  /-- "a valid, stable state (not an error)" (rule R7). -/
  | unrecognized
  deriving DecidableEq, Repr

/-- One row of the opcode table. The first four are the events of rule R39; the last three are the rows of the
register-address decoder of rule R47 (format SEL8). -/
inductive Instr where
  /-- CONNECT (rule R64). -/
  | connect (address : Address) (isRead : Bool)
  /-- READ (rule R68); its operand is ignored (rule R45) and kept so that no word loses a bit. -/
  | read (operand : Byte)
  /-- WRITE (rule R76). -/
  | write (byte : Byte)
  /-- DISCONNECT (rule R81); its operand is ignored (rule R82). -/
  | disconnect (byte : Byte)
  /-- SEL_MEASUREMENT: the byte 0x66 at the register-address decoder. -/
  | selMeasurement
  /-- SEL_PRODUCT_ID: the byte 0xC8 at the register-address decoder. -/
  | selProductId
  /-- SEL_UNRECOGNIZED: any other byte at the register-address decoder. -/
  | selUnrecognized (selector : Byte)
  deriving DecidableEq, Repr

/-- A word of the table, by its format: EV10 (rule R42) or SEL8 (the operand of rule R47). -/
inductive CodeWord where
  | event (w : EventWord)
  | selector (b : Byte)
  deriving DecidableEq, Repr

end Sys2Proof
end

