-- ==== Sys2Proof/WellFormed.lean ====
section
/-! DEFINITION. Which terms of Instr stand for a word of the table. -/

namespace Sys2Proof

/-- The default row SEL_UNRECOGNIZED "applies only when neither of the other two does" (30_encoding.md, opening;
rule R47). Every operand of every other row is legal (rule R50). -/
def Instr.wf : Instr → Bool
  | .connect _ _ => true
  | .read _ => true
  | .write _ => true
  | .disconnect _ => true
  | .selMeasurement => true
  | .selProductId => true
  | .selUnrecognized b => b != 0x66#8 && b != 0xC8#8

end Sys2Proof
end

