-- ==== Sys2Proof/Decode.lean ====
section
/-! DEFINITION. The event word (rules R42 to R45), the register-address decoder (rule R47), and the encoder. -/

namespace Sys2Proof

/-! ### The event word -/

/-- `kind`, bits 9:8 (rule R42). -/
def eventKind (w : EventWord) : BitVec 2 := w.extractLsb' 8 2

/-- `operand`, bits 7:0 (rule R42). -/
def eventOperand (w : EventWord) : Byte := w.extractLsb' 0 8

/-- `EV[9:0]` put together from the port's two fields (rule R42). -/
def eventWord (kind : BitVec 2) (operand : Byte) : EventWord := kind ++ operand

/-- `operand[7:1]` of a CONNECT (rule R44). -/
def operandAddress (operand : Byte) : Address := operand.extractLsb' 1 7

/-- `operand[0]` of a CONNECT, 1 = read (rule R44). -/
def operandIsRead (operand : Byte) : Bool := operand.getLsbD 0

/-- The operand byte of a CONNECT (rule R44). -/
def connectOperand (address : Address) (isRead : Bool) : Byte := address ++ BitVec.ofBool isRead

/-- Which event a word is (rule R43). The last branch is kind 0b11 alone: the other three kinds stand before it. -/
def decodeEvent (w : EventWord) : Instr :=
  if eventKind w = 0b00#2 then .connect (operandAddress (eventOperand w)) (operandIsRead (eventOperand w))
  else if eventKind w = 0b01#2 then .read (eventOperand w)
  else if eventKind w = 0b10#2 then .write (eventOperand w)
  else .disconnect (eventOperand w)

/-! ### The register-address decoder -/

/-- `SEL_MEASUREMENT` (rule R3). -/
def measurementSelector : Byte := 0x66#8

/-- `SEL_PRODUCT_ID` (rule R3). -/
def productIdSelector : Byte := 0xC8#8

/-- `DecodeSelector` (rules R47, R48): an exact compare on all eight bits, total, without state. -/
def decodeSelector (b : Byte) : Register :=
  if b = measurementSelector then .measurement
  else if b = productIdSelector then .productId
  else .unrecognized

/-- Which SEL8 row of the table a byte belongs to; the default row comes last. -/
def decodeSelectorRow (b : Byte) : Instr :=
  if b = measurementSelector then .selMeasurement
  else if b = productIdSelector then .selProductId
  else .selUnrecognized b

/-! ### Words of either format -/

/-- No word of either format is illegal (rule R50), so this is total without a refusal. -/
def decodeWord : CodeWord → Instr
  | .event w => decodeEvent w
  | .selector b => decodeSelectorRow b

/-- Why a number is no word of the table. -/
inductive DecodeError where
  /-- The width is neither the 8 bits of SEL8 nor at least the 10 bits of EV10. -/
  | noFormatOfWidth (nbits : Nat)
  /-- The number has a bit above the format's highest one. -/
  | bitsBeyondWord (w : Nat)
  deriving DecidableEq, Repr

/-- A number of `nbits` bits read as a word: 8 bits is the format SEL8; 10 bits, or more where a table counts in whole
bytes, is the format EV10 with every further bit 0. DESIGN CHOICE (log 7): rule R42 gives a word no bytes. -/
def codeWordOf (nbits w : Nat) : Except DecodeError CodeWord :=
  if nbits = 8 then
    if w < 256 then .ok (.selector (BitVec.ofNat 8 w)) else .error (.bitsBeyondWord w)
  else if 10 ≤ nbits then
    if w < 1024 then .ok (.event (BitVec.ofNat 10 w)) else .error (.bitsBeyondWord w)
  else .error (.noFormatOfWidth nbits)

/-- The decoder on numbers: total, refusing by name. -/
def decode (nbits w : Nat) : Except DecodeError Instr :=
  match codeWordOf nbits w with
  | .ok c => .ok (decodeWord c)
  | .error e => .error e

/-- The decoder as the opcode table numbers a row's bits; `none` where it refuses. -/
def decodeTableWord (nbits w : Nat) : Option Instr :=
  match decode nbits w with
  | .ok i => some i
  | .error _ => none

/-! ### The encoder -/

/-- The word of an instruction (rules R42 to R45 and R47). -/
def encode : Instr → CodeWord
  | .connect address isRead => .event (eventWord 0b00#2 (connectOperand address isRead))
  | .read operand => .event (eventWord 0b01#2 operand)
  | .write byte => .event (eventWord 0b10#2 byte)
  | .disconnect byte => .event (eventWord 0b11#2 byte)
  | .selMeasurement => .selector measurementSelector
  | .selProductId => .selector productIdSelector
  | .selUnrecognized b => .selector b

end Sys2Proof
end

