-- ==== Sys2Proof/Machine/State.lean ====
section
/-! DEFINITION. The state of the system: the instances with their two registers, the stage, and the host's side of the
port as plain data; the ways a step can stop; the state after reset. -/

namespace Sys2Proof.Machine

/-- `phase` (rule R11): the position inside a bus transaction. -/
inductive Phase where
  | awaitingTransactionStart
  | readByte1 | readByte2 | readByte3 | readByte4 | readByte5 | readByte6
  | writeByte1 | writeByte2 | writeByte3
  deriving DecidableEq, Repr

/-- One device instance: "exactly two state registers ... and nothing else" (rule R10). -/
structure Device where
  phase : Phase
  sel : Register
  deriving DecidableEq, Repr

/-- An instance after reset and after creation (rule R20). -/
def Device.reset : Device where
  phase := .awaitingTransactionStart
  sel := .unrecognized

/-- The name of an instance, a type of its own over the naturals (rule R57). -/
structure Handle where
  index : Nat
  deriving DecidableEq, Repr

/-- The two stages of rule R59. -/
inductive Stage where
  /-- Only CREATE has occurred. -/
  | initialisation
  /-- An event or a RESET has occurred. -/
  | run
  deriving DecidableEq, Repr

/-- What the port of rule R41 receives in one step, with the instance-select input of rule R55 beside it. -/
structure PortCycle where
  rst : Bool
  evValid : Bool
  evKind : BitVec 2
  evOperand : Byte
  /-- The handle that comes beside the event word (rule R53). -/
  handle : Handle
  /-- The clock pin; no rule reads it (rule R41). -/
  scl : Bool
  /-- The data pin; no rule reads it (rule R41). -/
  sda : Bool
  deriving DecidableEq, Repr

/-- One step's input from the host. -/
inductive Input where
  /-- CREATE (rule R58). -/
  | create
  /-- One step at the event port (rule R41). -/
  | cycle (p : PortCycle)
  /-- A byte at the register-address decoder alone (rules R47, R48). DESIGN CHOICE (log 1). -/
  | selector (b : Byte)
  /-- Two presentations in one step, which the host owes not to make (rule R105). DESIGN CHOICE (log 12): the input is
  refused as it stands, whatever the two cycles hold, `rst` or no event among it. -/
  | overlap (first second : PortCycle)
  deriving DecidableEq, Repr

/-- What one instance answers to an event (rule R8, R46). -/
inductive Answer where
  /-- CONNECT and WRITE. -/
  | accepted (ok : Bool)
  /-- READ. -/
  | byte (b : Byte)
  /-- DISCONNECT. -/
  | nothing
  deriving DecidableEq, Repr

/-- What a step answers to the host, and which part of the system answers. -/
inductive Response where
  /-- The instance `h` answers an event (rule R60). -/
  | ofInstance (h : Handle) (a : Answer)
  /-- CREATE returns the new instance's handle (rule R58). -/
  | created (h : Handle)
  /-- The register-address decoder's result (rule R48). -/
  | register (r : Register)
  deriving DecidableEq, Repr

/-- Everything the spec gives the system, and the host's side of the port. -/
structure State where
  /-- `dev[0 .. N_DEVICES-1]` (rule R56); its length is `N_DEVICES`. -/
  devices : List Device
  /-- The stage of rule R59. -/
  stage : Stage
  /-- The instance-select input: the handle of the event being delivered (rules R55, R60). -/
  context : Handle
  /-- What the last step answered, `none` where it answered nothing (rules R41, R46). -/
  response : Option Response
  /-- The model's own: what the host presents in the steps to come, one entry a step (log 2). -/
  inputs : List Input
  deriving DecidableEq, Repr

/-- The ways a step faults. -/
inductive Fault where
  /-- Raised by instance selection for any of the four events when the handle names no instance (rules R61, R89).
  Safe: the run ends, as the spec says. -/
  | hostIntegration (handle : Handle)
  deriving DecidableEq, Repr

/-- The ways a step is refused. -/
inductive Refusal where
  /-- Raised by an arm of exec that has no meaning yet; no arm is left so. Safe: nothing is claimed of it. -/
  | notModelled (mnemonic : String)
  /-- Raised by the step for a CREATE in the run stage (rule R59, 93_implementation_defined.md U3). Safe: the spec
  gives it no meaning. -/
  | createInRunStage
  /-- Raised by the step for two presentations at one time (rule R105, 93_implementation_defined.md U4), without reading
  their `rst` or `ev_valid` (log 12). Safe: the run stops; the spec has no step for two events. -/
  | overlappingEvents
  deriving DecidableEq, Repr

/-- The outcome of one step. -/
abbrev Result := Host.Outcome State Fault Refusal

/-- What a step finds at the port, with the state from which that input has been taken. -/
inductive Fetched where
  /-- No event, no reset, no CREATE. -/
  | idle (t : State)
  | create (t : State)
  | reset (t : State)
  | instruction (i : Instr) (t : State)
  | overlapping
  deriving DecidableEq, Repr

/-- A system of `n` instances of which none has seen an event (rules R20, R56). -/
def State.resetWith (n : Nat) : State where
  devices := List.replicate n Device.reset
  stage := .initialisation
  context := ⟨Config.handleBase⟩
  response := none
  inputs := []

/-- The machine right after reset, with the default number of instances (rules R3, R20; log 3, 4, 5). -/
def State.reset : State := State.resetWith Config.nDevices

end Sys2Proof.Machine
end

