-- ==== Sys2Proof/Machine/Ops.lean ====
section
/-! DEFINITION. The operations the meanings and the step share: the response ROM and multiplexer, the two counters,
instance selection and its fault, CREATE, RESET, and taking the next input from the port. -/

namespace Sys2Proof.Machine

/-! ### The response ROM (rules R24 to R26) -/

/-- The constant response table of a register; its length is the response length (rules R3, R24, R27). -/
def responseTable : Register → List Byte
  | .productId => [0x08#8, 0x87#8, 0x5B#8]
  | .measurement => [0x65#8, 0xD5#8, 0x52#8, 0x5D#8, 0xD1#8, 0x13#8]
  | .unrecognized => []

/-- `Rom(reg, idx)`, defined at exactly nine addresses (rules R24, R25). -/
def rom (reg : Register) (idx : Nat) : Option Byte := (responseTable reg)[idx]?

/-- `SENTINEL` (rule R3): what a desynchronised READ returns. -/
def sentinel : Byte := 0x00#8

/-! ### The counters (rule R13) -/

/-- The ROM index that a READ in this phase asks for: `n - 1` in `RDn` (rule R69). -/
def readIndex : Phase → Option Nat
  | .readByte1 => some 0
  | .readByte2 => some 1
  | .readByte3 => some 2
  | .readByte4 => some 3
  | .readByte5 => some 4
  | .readByte6 => some 5
  | .awaitingTransactionStart | .writeByte1 | .writeByte2 | .writeByte3 => none

/-- The phase whose READ asks for this ROM index; past the sixth byte there is none, and the machine is idle. -/
def readPhase : Nat → Phase
  | 0 => .readByte1
  | 1 => .readByte2
  | 2 => .readByte3
  | 3 => .readByte4
  | 4 => .readByte5
  | 5 => .readByte6
  | _ + 6 => .awaitingTransactionStart

/-- The read counter: on to the next byte, or idle after the last byte of the selected register (rules R13, R69). -/
def readNext (reg : Register) (idx : Nat) : Phase :=
  if idx + 1 < (responseTable reg).length then readPhase (idx + 1) else .awaitingTransactionStart

/-- The write counter `WriteNext` (rules R13, R78). -/
def writeNext : Phase → Phase
  | .writeByte1 => .writeByte2
  | .writeByte2 => .writeByte3
  | .writeByte3 => .awaitingTransactionStart
  | .awaitingTransactionStart => .awaitingTransactionStart
  | .readByte1 | .readByte2 | .readByte3 | .readByte4 | .readByte5 | .readByte6 => .awaitingTransactionStart

/-! ### The response multiplexer -/

/-- `RespMux(sel, phase)` (rules R69 to R72): the byte of a READ and the phase after it. Where the ROM has no byte for
the pair it is the default arm: the sentinel, and idle. -/
def respMux (sel : Register) (phase : Phase) : Byte × Phase :=
  match readIndex phase with
  | none => (sentinel, .awaitingTransactionStart)
  | some idx =>
    match rom sel idx with
    | none => (sentinel, .awaitingTransactionStart)
    | some b => (b, readNext sel idx)

/-! ### Bit-level views (rules R14, R15) -/

/-- `phase[3:0]` (rule R14). -/
def phaseCode : Phase → BitVec 4
  | .awaitingTransactionStart => 0x0#4
  | .readByte1 => 0x1#4
  | .readByte2 => 0x2#4
  | .readByte3 => 0x3#4
  | .readByte4 => 0x4#4
  | .readByte5 => 0x5#4
  | .readByte6 => 0x6#4
  | .writeByte1 => 0x9#4
  | .writeByte2 => 0xA#4
  | .writeByte3 => 0xB#4

/-- The phase a code names; 0x7, 0x8, 0xC to 0xF name none (rule R14). -/
def phaseOfCode (c : BitVec 4) : Option Phase :=
  if c = 0x0#4 then some .awaitingTransactionStart
  else if c = 0x1#4 then some .readByte1
  else if c = 0x2#4 then some .readByte2
  else if c = 0x3#4 then some .readByte3
  else if c = 0x4#4 then some .readByte4
  else if c = 0x5#4 then some .readByte5
  else if c = 0x6#4 then some .readByte6
  else if c = 0x9#4 then some .writeByte1
  else if c = 0xA#4 then some .writeByte2
  else if c = 0xB#4 then some .writeByte3
  else none

/-- `sel[1:0]` (rule R15). -/
def registerCode : Register → BitVec 2
  | .unrecognized => 0b00#2
  | .productId => 0b01#2
  | .measurement => 0b10#2

/-- The register a code names; 0b11 names none (rule R15). -/
def registerOfCode (c : BitVec 2) : Option Register :=
  if c = 0b00#2 then some .unrecognized
  else if c = 0b01#2 then some .productId
  else if c = 0b10#2 then some .measurement
  else none

/-! ### Instance selection -/

/-- The one fault of the spec (rules R61, R89, R90): no next state, no response; the handle is recorded. -/
def raiseHostIntegrationFault (h : Handle) : Result := .fault (.hostIntegration h)

/-- `Dispatch(h, ev)` (rule R60): the handle is checked first (rule R93); then the event acts on that instance alone
and that instance's answer is the response. -/
def onInstance (s : State) (event : Device → Device × Answer) : Result :=
  match s.devices[s.context.index]? with
  | none => raiseHostIntegrationFault s.context
  | some d =>
    .next { s with
      devices := s.devices.set s.context.index (event d).1
      response := some (.ofInstance s.context (event d).2) }

/-- A result of the register-address decoder, which has "no state, no side effects" (rule R48). -/
def answerRegister (s : State) (r : Register) : Result :=
  .next { s with response := some (.register r) }

/-! ### CREATE and RESET, which are no events (rule R53) -/

/-- CREATE (rule R58), in the initialisation stage only (rule R59). -/
def createInstance (s : State) : Result :=
  match s.stage with
  | .initialisation =>
    .next { s with
      devices := s.devices ++ [Device.reset]
      response := some (.created ⟨s.devices.length⟩) }
  | .run => .refused .createInRunStage

/-- RESET (rule R100): every instance to its initial state, `N_DEVICES` as it is, nothing returned. RESET occurs in the
run stage only (rule R59), so it begins it. DEDUCED (log 4). -/
def resetInstances (s : State) : State :=
  { s with
    devices := s.devices.map fun _ => Device.reset
    stage := .run
    response := none }

/-! ### Taking the next input -/

/-- The state in which the event for instance `h` is executed: the event has come, so the run stage has begun. -/
def deliver (s : State) (h : Handle) : State :=
  { s with context := h, stage := .run, response := none }

/-- A step without event and reset: "nothing changes" (rule R41), and nothing is answered. -/
def idle (s : State) : State := { s with response := none }

/-- One step at the event port: reset wins over an event of the same step, which is dropped (rule R93). -/
def fetchCycle (p : PortCycle) (s : State) : Fetched :=
  if p.rst then .reset s
  else if p.evValid then .instruction (decodeEvent (eventWord p.evKind p.evOperand)) (deliver s p.handle)
  else .idle (idle s)

/-- What the host presents in this step. With nothing left to present the port is idle (log 2). Rule R93 lets reset win
over ONE event of the step, and rule R105 has no step for two events; neither says what `rst` together with two events
does, nor what two presentations do of which one carries no event. DESIGN CHOICE (log 12): an overlap is refused without
reading `rst` or `ev_valid` of its cycles. -/
def fetch (s : State) : Fetched :=
  match s.inputs with
  | [] => .idle (idle s)
  | .create :: rest => .create { s with inputs := rest }
  | .cycle p :: rest => fetchCycle p { s with inputs := rest }
  | .selector b :: rest => .instruction (decodeSelectorRow b) (idle { s with inputs := rest })
  | .overlap _ _ :: _ => .overlapping

end Sys2Proof.Machine
end

