-- ==== Sys2Proof/Machine/Connect.lean ====
section
/-! DEFINITION. CONNECT, the transaction start (41_connect.md). -/

namespace Sys2Proof.Machine

/-- Rule R64 on one instance: the direction loads `phase`; always acknowledged (rule R67). -/
def connectDevice (isRead : Bool) (d : Device) : Device × Answer :=
  ({ d with phase := if isRead then .readByte1 else .writeByte1 }, .accepted true)

/-- CONNECT (rule R64). The address is carried and read by no rule (rule R65). -/
def execConnect (_address : Address) (isRead : Bool) (s : State) : Result :=
  onInstance s (connectDevice isRead)

end Sys2Proof.Machine
end

