-- ==== Sys2Proof/Machine/Disconnect.lean ====
section
/-! DEFINITION. DISCONNECT, the transaction end (44_disconnect.md). -/

namespace Sys2Proof.Machine

/-- Rule R81 on one instance: "no state is read, no state is written, nothing is returned". -/
def disconnectDevice (d : Device) : Device × Answer := (d, .nothing)

/-- DISCONNECT (rule R81). The operand is ignored (rule R82). -/
def execDisconnect (_byte : Byte) (s : State) : Result :=
  onInstance s disconnectDevice

end Sys2Proof.Machine
end

