-- ==== Sys2Proof/Machine/Read.lean ====
section
/-! DEFINITION. READ, the event behind the response multiplexer (42_read.md). -/

namespace Sys2Proof.Machine

/-- Rule R68 on one instance: the selection stands in every arm (rule R73). -/
def readDevice (d : Device) : Device × Answer :=
  ({ d with phase := (respMux d.sel d.phase).2 }, .byte (respMux d.sel d.phase).1)

/-- READ (rule R68). The operand field is ignored (rule R45). -/
def execRead (_operand : Byte) (s : State) : Result :=
  onInstance s readDevice

end Sys2Proof.Machine
end

