-- ==== Sys2Proof/Machine/Selector.lean ====
section
/-! DEFINITION. The three rows of the register-address decoder (rules R47, R48), each run on the decoder alone: the
result is answered and nothing else happens. DESIGN CHOICE (log 1). A WRITE meets the same decoder with its byte
(Machine/Write.lean), and there the result is stored. -/

namespace Sys2Proof.Machine

/-- SEL_MEASUREMENT: the byte 0x66 (rule R47). -/
def execSelMeasurement (s : State) : Result :=
  answerRegister s (decodeSelector measurementSelector)

/-- SEL_PRODUCT_ID: the byte 0xC8 (rule R47). -/
def execSelProductId (s : State) : Result :=
  answerRegister s (decodeSelector productIdSelector)

/-- SEL_UNRECOGNIZED: any other byte (rule R47), and so `Unrecognized`; the byte itself is not kept (rule R49). -/
def execSelUnrecognized (selector : Byte) (s : State) : Result :=
  answerRegister s (decodeSelector selector)

end Sys2Proof.Machine
end

