-- ==== Sys2Proof/Machine/Write.lean ====
section
/-! DEFINITION. WRITE, the event behind the register-address decoder (43_write.md). -/

namespace Sys2Proof.Machine

/-- Rule R76 on one instance: the decoded byte is stored in every phase (rule R77) and the write counter steps (rule
R78); always accepted (rule R79). -/
def writeDevice (byte : Byte) (d : Device) : Device × Answer :=
  ({ d with sel := decodeSelector byte, phase := writeNext d.phase }, .accepted true)

/-- WRITE (rule R76). -/
def execWrite (byte : Byte) (s : State) : Result :=
  onInstance s (writeDevice byte)

end Sys2Proof.Machine
end

