-- ==== Sys2Proof/Machine/Dispatch.lean ====
section
/-! DEFINITION. One arm per constructor of Instr. -/

namespace Sys2Proof.Machine

/-- Which meaning an instruction has. -/
def exec (i : Instr) (s : State) : Host.Outcome State Fault Refusal :=
  match i with
  | .connect address isRead => Sys2Proof.Machine.execConnect address isRead s
  | .read operand => Sys2Proof.Machine.execRead operand s
  | .write byte => Sys2Proof.Machine.execWrite byte s
  | .disconnect byte => Sys2Proof.Machine.execDisconnect byte s
  | .selMeasurement => Sys2Proof.Machine.execSelMeasurement s
  | .selProductId => Sys2Proof.Machine.execSelProductId s
  | .selUnrecognized selector => Sys2Proof.Machine.execSelUnrecognized selector s

end Sys2Proof.Machine
end

