-- ==== Sys2Proof/Machine/Operands.lean ====
section
/-! DEFINITION. How an event's operand reaches the port: the port cycles that present an event, a reset, or nothing. -/

namespace Sys2Proof.Machine

/-- A port cycle that presents the event `kind`, `operand` to the instance `h`. The bus pins stand high, as on an idle
bus; no rule reads them (rule R41). -/
def eventCycle (h : Handle) (kind : BitVec 2) (operand : Byte) : PortCycle where
  rst := false
  evValid := true
  evKind := kind
  evOperand := operand
  handle := h
  scl := true
  sda := true

/-- A port cycle that asserts `rst` and presents no event. -/
def resetCycle : PortCycle :=
  { eventCycle ⟨Config.handleBase⟩ 0b00#2 0x00#8 with rst := true, evValid := false }

/-- A port cycle with `ev_valid == 0` and `rst == 0` (rule R41). -/
def idleCycle : PortCycle :=
  { eventCycle ⟨Config.handleBase⟩ 0b00#2 0x00#8 with evValid := false }

/-- The input by which the word of either format is presented: an event word at the port of instance `h` (rules R42,
R53), a selector byte at the register-address decoder (log 1). -/
def inputOf (h : Handle) : CodeWord → Input
  | .event w => .cycle (eventCycle h (eventKind w) (eventOperand w))
  | .selector b => .selector b

end Sys2Proof.Machine
end

