-- ==== Sys2Proof/Machine/Step.lean ====
section
/-! DEFINITION. One step: one input of the host is taken from the port and answered (rules R4, R5). -/

namespace Sys2Proof.Machine

/-- One step of the system. -/
def step (s : State) : Host.Outcome State Fault Refusal :=
  match fetch s with
  | .idle t => .next t
  | .create t => createInstance t
  | .reset t => .next (resetInstances t)
  | .instruction i t => exec i t
  | .overlapping => .refused .overlappingEvents

/-- `s` with the table's word `w` as the next thing the host presents, to the instance of handle 0 (rule R51), before
whatever was waiting; `s` itself where the decoder refuses the number. The block fetches no program: the host delivers
events from outside (rules R18, R103; log 6). -/
def State.withFetchWord (s : State) (nbits w : Nat) : State :=
  match codeWordOf nbits w with
  | .ok c => { s with inputs := inputOf ⟨Config.handleBase⟩ c :: s.inputs }
  | .error _ => s

end Sys2Proof.Machine
end

