-- ==== Sys2Proof/Machine/Flags.lean ====
section
/-! DEFINITION. The block has no flags, condition codes or status bits (rule R17). What comes nearest are the port's two
output signals (rule R46) and the cause code of the one fault (rule R89); this file computes them. -/

namespace Sys2Proof.Machine

/-- `rsp_ack` (rule R46). The cells of READ and DISCONNECT are the spec's decision D8 (log 8). -/
def rspAck : Answer → BitVec 1
  | .accepted ok => BitVec.ofBool ok
  | .byte _ => 1#1
  | .nothing => 1#1

/-- `rsp_data` (rule R46). Every cell but READ's is the spec's decision D8 (log 8). -/
def rspData : Answer → Byte
  | .accepted _ => 0x00#8
  | .byte b => b
  | .nothing => 0x00#8

/-- The cause code of a fault (rules R84, R89; the spec's decision D10). -/
def faultCode : Fault → Nat
  | .hostIntegration _ => 1

/-- The cause code of a step's outcome: 0 is "no fault" (rule R89). A refused step has no outcome to number. -/
def causeCode : Result → Option Nat
  | .next _ => some 0
  | .fault f => some (faultCode f)
  | .refused _ => none

end Sys2Proof.Machine
end

