-- ==== Sys2Proof/Machine/Script.lean ====
section
/-! DEFINITION. The spec's own way of writing events (rule R51) and its pseudo-instructions (rule R52), as data, with the
event word, the port input and the text of each line. "The block knows nothing of them". -/

namespace Sys2Proof.Machine

/-- One line of the notation of rule R51, without its handle. -/
inductive ScriptLine where
  /-- `CONNECT R` or `CONNECT W`, with `@a` where an address is given. -/
  | connect (isRead : Bool) (address : Option Address)
  /-- `RD`. -/
  | rd
  /-- `WR b`. -/
  | wr (b : Byte)
  /-- `STOP`, with an operand where one is given. -/
  | stop (operand : Option Byte)
  /-- `RESET`: "not an event word, drives `rst`". -/
  | reset
  deriving DecidableEq, Repr

/-- The event a line stands for, with the defaults of rule R51: address 0x70, READ's canonical word, operand 0x00. -/
def lineInstr : ScriptLine → Option Instr
  | .connect isRead address => some (.connect (address.getD Config.busAddress) isRead)
  | .rd => some (.read 0x00#8)
  | .wr b => some (.write b)
  | .stop operand => some (.disconnect (operand.getD 0x00#8))
  | .reset => none

/-- The event word of a line (rule R51); RESET has none. -/
def lineWord (l : ScriptLine) : Option CodeWord := (lineInstr l).map encode

/-- What the host presents for a line prefixed `h<n>:` (rule R51). -/
def lineInput (h : Handle) (l : ScriptLine) : Input :=
  match lineWord l with
  | some c => inputOf h c
  | none => .cycle resetCycle

/-- The instance of a line without a handle before it (rule R51). -/
def defaultHandle : Handle := ⟨Config.handleBase⟩

/-- A sequence of lines for one instance. -/
def scriptInputs (h : Handle) (lines : List ScriptLine) : List Input := lines.map (lineInput h)

/-- A write transaction of the given bytes: `CONNECT W`, one `WR` each, `STOP`. -/
def writeTransaction (bytes : List Byte) : List ScriptLine :=
  .connect false none :: (bytes.map .wr ++ [.stop none])

/-- `SELECT b` (rule R52). -/
def selectByte (b : Byte) : List ScriptLine := [.connect false none, .wr b, .stop none]

/-- `SELECT2 b1, b2` (rule R52). -/
def selectTwo (b1 b2 : Byte) : List ScriptLine := [.connect false none, .wr b1, .wr b2, .stop none]

/-- `FETCH n` (rule R52). -/
def fetchBytes (n : Nat) : List ScriptLine := .connect true none :: (List.replicate n .rd ++ [.stop none])

/-! ### The text of a line and of a response (rule R51) -/

/-- Two upper-case hexadecimal digits behind `0x` (log 14). -/
def hexText (n : Nat) : String :=
  String.ofList ['0', 'x', (Nat.digitChar (n / 16 % 16)).toUpper, (Nat.digitChar (n % 16)).toUpper]

/-- A line as rule R51 writes it. -/
def lineText : ScriptLine → String
  | .connect isRead address =>
    (if isRead then "CONNECT R" else "CONNECT W") ++
      (match address with
      | none => ""
      | some a => " @" ++ hexText a.toNat)
  | .rd => "RD"
  | .wr b => "WR " ++ hexText b.toNat
  | .stop operand =>
    match operand with
    | none => "STOP"
    | some b => "STOP " ++ hexText b.toNat
  | .reset => "RESET"

/-- A line for the instance `h`, or without a handle before it (rule R51). -/
def scriptText (h : Option Handle) (l : ScriptLine) : String :=
  match h with
  | none => lineText l
  | some g => "h" ++ toString g.index ++ ": " ++ lineText l

/-- A response as rule R51 writes it: `-> true`, `-> 0x87`, and nothing where the event returns nothing. -/
def answerText : Answer → String
  | .accepted ok => if ok then "-> true" else "-> false"
  | .byte b => "-> " ++ hexText b.toNat
  | .nothing => ""

end Sys2Proof.Machine
end

