-- ==== Sys2Proof/Safety.lean ====
section
/-! DEFINITION. The terms in which claims speak: the instance a handle names, the reachable states, the invariant, the
host's duties, and what an observer of a run sees. -/

namespace Sys2Proof.Machine

/-- The instance a handle names (rule R57). -/
def State.deviceAt (s : State) (h : Handle) : Option Device := s.devices[h.index]?

/-- The 22 of the 30 states that rule R21 lists as reachable. -/
def Device.isReachable (d : Device) : Bool :=
  match d.phase, d.sel with
  | .awaitingTransactionStart, _ => true
  | .readByte1, _ => true
  | .writeByte1, _ => true
  | .writeByte2, _ => true
  | .writeByte3, _ => true
  | .readByte2, .productId => true
  | .readByte3, .productId => true
  | .readByte2, .measurement => true
  | .readByte3, .measurement => true
  | .readByte4, .measurement => true
  | .readByte5, .measurement => true
  | .readByte6, .measurement => true
  | .readByte2, .unrecognized => false
  | .readByte3, .unrecognized => false
  | .readByte4, .unrecognized => false
  | .readByte5, .unrecognized => false
  | .readByte6, .unrecognized => false
  | .readByte4, .productId => false
  | .readByte5, .productId => false
  | .readByte6, .productId => false

/-- The invariant of the system: every instance is in a reachable state (rule R21), and in the initialisation stage,
where only CREATE has occurred (rule R59), every instance is still as it was created. -/
structure State.Inv (s : State) : Prop where
  reachable : ∀ d ∈ s.devices, d.isReachable = true
  untouched : s.stage = .initialisation → ∀ d ∈ s.devices, d = Device.reset

/-- A READ in this state is a desynchronisation (rules R72, R85): no selection, or a phase in which the selected
register has no byte to give. -/
def Device.readDesynchronised (d : Device) : Bool :=
  match d.sel, d.phase with
  | .unrecognized, _ => true
  | _, .awaitingTransactionStart => true
  | _, .writeByte1 => true
  | _, .writeByte2 => true
  | _, .writeByte3 => true
  | .productId, .readByte4 => true
  | .productId, .readByte5 => true
  | .productId, .readByte6 => true
  | .productId, .readByte1 => false
  | .productId, .readByte2 => false
  | .productId, .readByte3 => false
  | .measurement, .readByte1 => false
  | .measurement, .readByte2 => false
  | .measurement, .readByte3 => false
  | .measurement, .readByte4 => false
  | .measurement, .readByte5 => false
  | .measurement, .readByte6 => false

/-- A WRITE in this phase is a desynchronisation (rule R85). -/
def Phase.writeDesynchronised (p : Phase) : Bool :=
  p != .writeByte1 && p != .writeByte2 && p != .writeByte3

/-- The four events of rule R39; the rows of the register-address decoder are none. -/
def isEvent : Instr → Bool
  | .connect _ _ => true
  | .read _ => true
  | .write _ => true
  | .disconnect _ => true
  | .selMeasurement => false
  | .selProductId => false
  | .selUnrecognized _ => false

/-- An input that presents an event, with the handle it is for: `ev_valid` without `rst` (rules R41, R93). -/
def Input.event? : Input → Option (Handle × Instr)
  | .cycle p => if !p.rst && p.evValid then some (p.handle, decodeEvent (eventWord p.evKind p.evOperand)) else none
  | .create => none
  | .selector _ => none
  | .overlap _ _ => none

/-- An input that asserts `rst`. -/
def Input.isReset : Input → Bool
  | .cycle p => p.rst
  | .create => false
  | .selector _ => false
  | .overlap _ _ => false

/-- The host's duties in the run stage (rules R104, R105): no CREATE, one event at a time, and only handles that CREATE
gave out, that is handles below the number `n` of instances. -/
def Input.dutiful (n : Nat) (x : Input) : Bool :=
  match x with
  | .create => false
  | .overlap _ _ => false
  | .selector _ => true
  | .cycle p => p.rst || !p.evValid || decide (p.handle.index < n)

/-- `s` with the host about to present these inputs. -/
def State.facing (s : State) (inputs : List Input) : State := { s with inputs := inputs }

/-- The outcome of presenting all of these inputs, one a step. -/
def runInputs (s : State) (inputs : List Input) : Result := core.run inputs.length (s.facing inputs)

/-- The responses of `k` steps, in order, as long as the steps give a next state (rule R8). -/
def transcript : Nat → State → List Response
  | 0, _ => []
  | k + 1, s =>
    match step s with
    | .next t => t.response.toList ++ transcript k t
    | .fault _ => []
    | .refused _ => []

/-- Everything the host is answered while presenting these inputs. -/
def responsesTo (s : State) (inputs : List Input) : List Response := transcript inputs.length (s.facing inputs)

/-- The answers of one instance among them: all that can be observed of that instance (rule R8). -/
def answersOf (h : Handle) : List Response → List Answer
  | [] => []
  | .ofInstance g a :: rest => if g = h then a :: answersOf h rest else answersOf h rest
  | .created _ :: rest => answersOf h rest
  | .register _ :: rest => answersOf h rest

/-- The bytes among an instance's answers: what a controller has read. -/
def bytesIn : List Answer → List Byte
  | [] => []
  | .byte b :: rest => b :: bytesIn rest
  | .accepted _ :: rest => bytesIn rest
  | .nothing :: rest => bytesIn rest

/-- The bytes a controller reads from instance `h` while the host presents these inputs. -/
def bytesRead (s : State) (h : Handle) (inputs : List Input) : List Byte :=
  bytesIn (answersOf h (responsesTo s inputs))

end Sys2Proof.Machine
end

