-- ==== Sys2Proof/Certificates/Slice0/Obligations.lean ====
section
/-! DEFINITION. The statements about the I2C slave controller, from the numbered rules of spec/. -/

open Sys2Proof Sys2Proof.Machine

/-! ### Encoding -/

/-- Words written out from rules R42 to R47 decode to the rows they stand for. -/
def Obligations.TableWordsDecode : Prop :=
  decodeTableWord 16 0x0E1 = some (.connect 0x70#7 true) ∧
  decodeTableWord 16 0x0E0 = some (.connect 0x70#7 false) ∧
  decodeTableWord 16 0x001 = some (.connect 0x00#7 true) ∧
  decodeTableWord 16 0x0FE = some (.connect 0x7F#7 false) ∧
  decodeTableWord 16 0x089 = some (.connect 0x44#7 true) ∧
  decodeTableWord 16 0x100 = some (.read 0x00#8) ∧
  decodeTableWord 16 0x1C8 = some (.read 0xC8#8) ∧
  decodeTableWord 16 0x266 = some (.write 0x66#8) ∧
  decodeTableWord 16 0x2C8 = some (.write 0xC8#8) ∧
  decodeTableWord 16 0x300 = some (.disconnect 0x00#8) ∧
  decodeTableWord 16 0x3C8 = some (.disconnect 0xC8#8) ∧
  decodeTableWord 8 0x66 = some .selMeasurement ∧
  decodeTableWord 8 0xC8 = some .selProductId ∧
  decodeTableWord 8 0x00 = some (.selUnrecognized 0x00#8)

/-- Decoding the word of any well-formed instruction gives the instruction back, every operand whole. -/
def Obligations.DecodeOfEncode : Prop :=
  ∀ i : Instr, i.wf = true → decodeWord (encode i) = i

/-- Every word of both formats has a meaning of its own: encoding what it decodes to gives the word back, and what it
decodes to is well formed (rule R50). -/
def Obligations.EncodeOfDecode : Prop :=
  ∀ c : CodeWord, encode (decodeWord c) = c ∧ (decodeWord c).wf = true

/-- Rule R43: the kind field, the ranges of the event words, and the event each stands for. -/
def Obligations.KindFieldSelectsEvent : Prop :=
  ∀ w : EventWord,
    (eventKind w = 0b00#2 ↔ w.toNat ≤ 0x0FF) ∧
    (eventKind w = 0b01#2 ↔ 0x100 ≤ w.toNat ∧ w.toNat ≤ 0x1FF) ∧
    (eventKind w = 0b10#2 ↔ 0x200 ≤ w.toNat ∧ w.toNat ≤ 0x2FF) ∧
    (eventKind w = 0b11#2 ↔ 0x300 ≤ w.toNat ∧ w.toNat ≤ 0x3FF) ∧
    ((∃ a r, decodeEvent w = .connect a r) ↔ eventKind w = 0b00#2) ∧
    ((∃ o, decodeEvent w = .read o) ↔ eventKind w = 0b01#2) ∧
    ((∃ b, decodeEvent w = .write b) ↔ eventKind w = 0b10#2) ∧
    ((∃ b, decodeEvent w = .disconnect b) ↔ eventKind w = 0b11#2)

/-- Rule R44: the operand of CONNECT is the address shifted over the direction bit, for all 128 addresses and both
directions, and the two words of the device's own address. -/
def Obligations.ConnectOperandLayout : Prop :=
  (∀ (a : Address) (r : Bool), decodeEvent (BitVec.ofNat 10 (2 * a.toNat + r.toNat)) = .connect a r) ∧
  encode (.connect Config.busAddress true) = .event 0x0E1#10 ∧
  encode (.connect Config.busAddress false) = .event 0x0E0#10

/-- Rule R45: the operand of WRITE is the byte written; all 256 operands of READ mean the same READ, and all 256 of
DISCONNECT the same DISCONNECT, as the canonical words do. -/
def Obligations.WriteByteAndIgnoredOperands : Prop :=
  (∀ b : Byte, decodeEvent (BitVec.ofNat 10 (0x200 + b.toNat)) = .write b) ∧
  (∀ (o : Byte) (s : State),
    exec (decodeEvent (BitVec.ofNat 10 (0x100 + o.toNat))) s = exec (decodeEvent 0x100#10) s) ∧
  (∀ (b : Byte) (s : State),
    exec (decodeEvent (BitVec.ofNat 10 (0x300 + b.toNat))) s = exec (decodeEvent 0x300#10) s) ∧
  (∀ s : State, exec (decodeEvent 0x100#10) s = exec (.read 0x00#8) s) ∧
  (∀ s : State, exec (decodeEvent 0x300#10) s = exec (.disconnect 0x00#8) s)

/-- Which numbers are no word of the table: the model's reading of a number as a word (log 7, DESIGN CHOICE), since the
spec lays an event word out in no bytes. -/
def Obligations.NumbersRefused : Prop :=
  ∀ nbits w : Nat,
    decodeTableWord nbits w = none ↔
      (nbits = 8 ∧ 256 ≤ w) ∨ (10 ≤ nbits ∧ 1024 ≤ w) ∨ (nbits ≠ 8 ∧ nbits < 10)

/-- Rules R14 and R15: the codes of the two registers, all different, and the codes that name nothing. -/
def Obligations.StateCodes : Prop :=
  ([Phase.awaitingTransactionStart, .readByte1, .readByte2, .readByte3, .readByte4, .readByte5, .readByte6,
      .writeByte1, .writeByte2, .writeByte3].map phaseCode
    = [0x0#4, 0x1#4, 0x2#4, 0x3#4, 0x4#4, 0x5#4, 0x6#4, 0x9#4, 0xA#4, 0xB#4]) ∧
  (∀ (c : BitVec 4) (p : Phase), phaseOfCode c = some p ↔ phaseCode p = c) ∧
  (∀ c ∈ [0x7#4, 0x8#4, 0xC#4, 0xD#4, 0xE#4, 0xF#4], phaseOfCode c = none) ∧
  ([Register.unrecognized, .productId, .measurement].map registerCode = [0b00#2, 0b01#2, 0b10#2]) ∧
  (∀ (c : BitVec 2) (r : Register), registerOfCode c = some r ↔ registerCode r = c) ∧
  registerOfCode 0b11#2 = none

/-- Rules R51 and R52: the event word of every line of the notation, and the three expansions. RESET has no word. -/
def Obligations.NotationWords : Prop :=
  lineWord (.connect true none) = some (.event 0x0E1#10) ∧
  lineWord (.connect false none) = some (.event 0x0E0#10) ∧
  (∀ a : Address, lineWord (.connect true (some a)) = some (.event (BitVec.ofNat 10 (2 * a.toNat + 1)))) ∧
  (∀ a : Address, lineWord (.connect false (some a)) = some (.event (BitVec.ofNat 10 (2 * a.toNat)))) ∧
  lineWord .rd = some (.event 0x100#10) ∧
  (∀ b : Byte, lineWord (.wr b) = some (.event (BitVec.ofNat 10 (0x200 + b.toNat)))) ∧
  lineWord (.stop none) = some (.event 0x300#10) ∧
  (∀ b : Byte, lineWord (.stop (some b)) = some (.event (BitVec.ofNat 10 (0x300 + b.toNat)))) ∧
  lineWord .reset = none ∧
  (∀ b : Byte, selectByte b = writeTransaction [b]) ∧
  (∀ b1 b2 : Byte, selectTwo b1 b2 = writeTransaction [b1, b2]) ∧
  (∀ n : Nat, fetchBytes n = [.connect true none] ++ List.replicate n .rd ++ [.stop none])

/-! ### The tables -/

/-- Rule R47: the selector map, both ways round, and the neighbours that are no selectors. -/
def Obligations.SelectorMap : Prop :=
  (∀ b : Byte, decodeSelector b = .measurement ↔ b = 0x66#8) ∧
  (∀ b : Byte, decodeSelector b = .productId ↔ b = 0xC8#8) ∧
  (∀ b : Byte, decodeSelector b = .unrecognized ↔ b ≠ 0x66#8 ∧ b ≠ 0xC8#8) ∧
  (∀ b ∈ [0x67#8, 0xE6#8, 0x46#8, 0xC9#8, 0x48#8, 0xE8#8], decodeSelector b = .unrecognized)

/-- Rule R24: the nine ROM bytes, and no value at any other address. -/
def Obligations.RomContents : Prop :=
  (rom .productId 0 = some 0x08#8 ∧ rom .productId 1 = some 0x87#8 ∧ rom .productId 2 = some 0x5B#8) ∧
  (rom .measurement 0 = some 0x65#8 ∧ rom .measurement 1 = some 0xD5#8 ∧ rom .measurement 2 = some 0x52#8 ∧
    rom .measurement 3 = some 0x5D#8 ∧ rom .measurement 4 = some 0xD1#8 ∧ rom .measurement 5 = some 0x13#8) ∧
  (∀ (reg : Register) (idx : Nat),
    (rom reg idx).isSome = true ↔ (reg = .productId ∧ idx < 3) ∨ (reg = .measurement ∧ idx < 6))

/-- Rule R69: all 30 rows of the response multiplexer, column by column in the order of the rule's table. -/
def Obligations.ResponseMuxTable : Prop :=
  let phases := [Phase.awaitingTransactionStart, .readByte1, .readByte2, .readByte3, .readByte4, .readByte5,
    .readByte6, .writeByte1, .writeByte2, .writeByte3]
  phases.map (respMux .productId) =
    [(0x00#8, .awaitingTransactionStart), (0x08#8, .readByte2), (0x87#8, .readByte3),
      (0x5B#8, .awaitingTransactionStart), (0x00#8, .awaitingTransactionStart), (0x00#8, .awaitingTransactionStart),
      (0x00#8, .awaitingTransactionStart), (0x00#8, .awaitingTransactionStart), (0x00#8, .awaitingTransactionStart),
      (0x00#8, .awaitingTransactionStart)] ∧
  phases.map (respMux .measurement) =
    [(0x00#8, .awaitingTransactionStart), (0x65#8, .readByte2), (0xD5#8, .readByte3), (0x52#8, .readByte4),
      (0x5D#8, .readByte5), (0xD1#8, .readByte6), (0x13#8, .awaitingTransactionStart),
      (0x00#8, .awaitingTransactionStart), (0x00#8, .awaitingTransactionStart), (0x00#8, .awaitingTransactionStart)] ∧
  ∀ p : Phase, respMux .unrecognized p = (0x00#8, .awaitingTransactionStart)

/-! ### The events complete -/

/-- Rule R64: CONNECT, in every state, for every address, with its encoding; all of the state that it leaves alone. -/
def Obligations.ConnectCompletes : Prop :=
  ∀ (s : State) (d : Device) (a : Address) (r : Bool),
    s.devices[s.context.index]? = some d →
      exec (.connect a r) s = .next { s with
        devices := s.devices.set s.context.index ⟨if r then .readByte1 else .writeByte1, d.sel⟩
        response := some (.ofInstance s.context (.accepted true)) } ∧
      encode (.connect a r) = .event (0b00#2 ++ (a ++ BitVec.ofBool r)) ∧
      decodeEvent (0b00#2 ++ (a ++ BitVec.ofBool r)) = .connect a r

/-- Rule R65: the address is read by no rule. -/
def Obligations.ConnectAddressUnread : Prop :=
  ∀ (s : State) (a a' : Address) (r : Bool), exec (.connect a r) s = exec (.connect a' r) s

/-- Rules R66 and R67: a CONNECT on top of another overrides it, from every state, whatever came of the first. -/
def Obligations.ConnectOverridesConnect : Prop :=
  ∀ (s t : State) (a a' : Address) (r r' : Bool),
    exec (.connect a r) s = .next t → exec (.connect a' r') t = exec (.connect a' r') s

/-- Rule R68: READ in every state, with its encoding; the selection and all else stand. -/
def Obligations.ReadCompletes : Prop :=
  ∀ (s : State) (d : Device) (o : Byte),
    s.devices[s.context.index]? = some d →
      exec (.read o) s = .next { s with
        devices := s.devices.set s.context.index ⟨(respMux d.sel d.phase).2, d.sel⟩
        response := some (.ofInstance s.context (.byte (respMux d.sel d.phase).1)) } ∧
      decodeEvent (0b01#2 ++ o) = .read o ∧ encode (.read 0x00#8) = .event 0x100#10

/-- Rule R76: WRITE in every state, with its encoding. -/
def Obligations.WriteCompletes : Prop :=
  ∀ (s : State) (d : Device) (b : Byte),
    s.devices[s.context.index]? = some d →
      exec (.write b) s = .next { s with
        devices := s.devices.set s.context.index ⟨writeNext d.phase, decodeSelector b⟩
        response := some (.ofInstance s.context (.accepted true)) } ∧
      decodeEvent (0b10#2 ++ b) = .write b ∧ encode (.write b) = .event (0b10#2 ++ b)

/-- Rule R81: DISCONNECT changes no instance, in any state, and returns nothing. -/
def Obligations.DisconnectChangesNothing : Prop :=
  ∀ (s : State) (d : Device) (b : Byte),
    s.devices[s.context.index]? = some d →
      exec (.disconnect b) s = .next { s with response := some (.ofInstance s.context .nothing) } ∧
      decodeEvent (0b11#2 ++ b) = .disconnect b ∧ encode (.disconnect 0x00#8) = .event 0x300#10

/-- The rows of the register-address decoder run in every state and answer the register of rule R47; nothing else
changes (rule R48). That a row of the decoder is a step of its own is the model's choice (log 1, DESIGN CHOICE). The
last clauses give the response lengths 6, 3 and 0 (rules R3, R25 and R27). -/
def Obligations.SelectorRowsComplete : Prop :=
  ∀ s : State,
    exec .selMeasurement s = .next { s with response := some (.register .measurement) } ∧
    exec .selProductId s = .next { s with response := some (.register .productId) } ∧
    (∀ b : Byte, (Instr.selUnrecognized b).wf = true →
      exec (.selUnrecognized b) s = .next { s with response := some (.register .unrecognized) }) ∧
    (responseTable .measurement).length = 6 ∧ (responseTable .productId).length = 3 ∧
    (responseTable .unrecognized).length = 0

/-- What the decoder's row answers for a byte is what a WRITE of that byte stores (rules R47, R76; the step of a decoder
row is log 1, DESIGN CHOICE). -/
def Obligations.WriteStoresDecoderResult : Prop :=
  ∀ (s : State) (d : Device) (b : Byte),
    s.devices[s.context.index]? = some d →
      ∃ (reg : Register) (t u : State),
        exec (decodeSelectorRow b) s = .next t ∧ t.response = some (.register reg) ∧ t.devices = s.devices ∧
        exec (.write b) s = .next u ∧ u.deviceAt s.context = some ⟨writeNext d.phase, reg⟩

/-! ### Frames and responses -/

/-- Rules R22 and R60: an instruction leaves every other instance, the number of instances, the stage, the handle and
the inputs to come as they are. -/
def Obligations.OtherInstancesUnchanged : Prop :=
  ∀ (i : Instr) (s t : State),
    exec i s = .next t →
      (∀ h : Handle, h ≠ s.context → t.deviceAt h = s.deviceAt h) ∧
      t.devices.length = s.devices.length ∧ t.stage = s.stage ∧ t.context = s.context ∧ t.inputs = s.inputs

/-- What each instruction answers: the four events as rules R9 and R39 say, CONNECT and WRITE always `true`; the three
rows of the decoder with the register of rule R47. That a row of the decoder is a step that answers is the model's choice
(log 1, DESIGN CHOICE). -/
def Obligations.ResponseOfEachInstruction : Prop :=
  ∀ (i : Instr) (s t : State),
    exec i s = .next t →
      match i with
      | .connect _ _ => t.response = some (.ofInstance s.context (.accepted true))
      | .read _ => ∃ b, t.response = some (.ofInstance s.context (.byte b))
      | .write _ => t.response = some (.ofInstance s.context (.accepted true))
      | .disconnect _ => t.response = some (.ofInstance s.context .nothing)
      | .selMeasurement => t.response = some (.register .measurement)
      | .selProductId => t.response = some (.register .productId)
      | .selUnrecognized b => t.response = some (.register (decodeSelector b))

/-- Rule R46, in the cells that the source defines: `rsp_ack` of CONNECT and WRITE, `rsp_data` of READ. -/
def Obligations.PortOutputs : Prop :=
  ∀ (s : State) (d : Device),
    s.devices[s.context.index]? = some d →
      (∀ a r, ∃ t x, exec (.connect a r) s = .next t ∧ t.response = some (.ofInstance s.context x) ∧ rspAck x = 1#1) ∧
      (∀ b, ∃ t x, exec (.write b) s = .next t ∧ t.response = some (.ofInstance s.context x) ∧ rspAck x = 1#1) ∧
      (∀ o, ∃ t x, exec (.read o) s = .next t ∧ t.response = some (.ofInstance s.context x) ∧
        rspData x = (respMux d.sel d.phase).1)

/-- Rule R112: only WRITE and reset change a selection. -/
def Obligations.SelectionIsSticky : Prop :=
  ∀ s t : State,
    step s = .next t →
      (∀ x, s.inputs.head? = some x → x.isReset = false ∧ ∀ g b, x.event? ≠ some (g, .write b)) →
        ∀ (h : Handle) (d : Device), s.deviceAt h = some d → ∃ d', t.deviceAt h = some d' ∧ d'.sel = d.sel

/-- Rule R78: the write counter's table; the selection is stored in every phase; a READ right after a WRITE returns 0x00
whatever the counter holds. -/
def Obligations.WriteCounter : Prop :=
  ([Phase.writeByte1, .writeByte2, .writeByte3, .awaitingTransactionStart, .readByte1, .readByte2, .readByte3,
      .readByte4, .readByte5, .readByte6].map writeNext
    = [.writeByte2, .writeByte3, .awaitingTransactionStart, .awaitingTransactionStart, .awaitingTransactionStart,
      .awaitingTransactionStart, .awaitingTransactionStart, .awaitingTransactionStart, .awaitingTransactionStart,
      .awaitingTransactionStart]) ∧
  (∀ (s : State) (d : Device) (b o : Byte),
    s.devices[s.context.index]? = some d →
      ∃ t u : State,
        exec (.write b) s = .next t ∧ t.deviceAt s.context = some ⟨writeNext d.phase, decodeSelector b⟩ ∧
        t.response = some (.ofInstance s.context (.accepted true)) ∧
        exec (.read o) t = .next u ∧ u.response = some (.ofInstance s.context (.byte 0x00#8)))

/-! ### Desynchronisation -/

/-- Rules R72 and R86: a READ in any of the 21 states of the default arm returns 0x00, goes idle and keeps the
selection. -/
def Obligations.DesynchronisedRead : Prop :=
  (∀ (s : State) (d : Device) (o : Byte),
    s.devices[s.context.index]? = some d → d.readDesynchronised = true →
      exec (.read o) s = .next { s with
        devices := s.devices.set s.context.index ⟨.awaitingTransactionStart, d.sel⟩
        response := some (.ofInstance s.context (.byte 0x00#8)) }) ∧
  ∃ l : List Device, l.Nodup ∧ l.length = 21 ∧ ∀ d, d ∈ l ↔ d.readDesynchronised = true

/-- Rule R75 (e): a READ answers 0x00 in the default arm and nowhere else. -/
def Obligations.ZeroByteMeansDesynchronised : Prop :=
  ∀ (s t : State) (d : Device) (o : Byte),
    s.devices[s.context.index]? = some d → exec (.read o) s = .next t →
      (t.response = some (.ofInstance s.context (.byte 0x00#8)) ↔ d.readDesynchronised = true)

/-- A WRITE outside a write phase goes idle, still stores the selection and still returns `true`: rule R87, which the
spec marks as its own inference from rules R76 and R78. -/
def Obligations.DesynchronisedWrite : Prop :=
  ∀ (s : State) (d : Device) (b : Byte),
    s.devices[s.context.index]? = some d → d.phase.writeDesynchronised = true →
      exec (.write b) s = .next { s with
        devices := s.devices.set s.context.index ⟨.awaitingTransactionStart, decodeSelector b⟩
        response := some (.ofInstance s.context (.accepted true)) }

/-- Rule R95: READs without a CONNECT, from idle, each return 0x00 without limit and without any change of state. -/
def Obligations.IdleReadsRepeat : Prop :=
  ∀ (n : Nat) (s : State) (h : Handle) (reg : Register),
    s.deviceAt h = some ⟨.awaitingTransactionStart, reg⟩ →
      bytesRead s h (scriptInputs h (List.replicate n .rd)) = List.replicate n 0x00#8 ∧
      ∃ t, runInputs s (scriptInputs h (List.replicate n .rd)) = .next t ∧ t.devices = s.devices

/-! ### The step, the port and the instances -/

/-- A step runs what the port presents: an event word on the instance it is for (rules R41, R60), in the run stage (rule
R59). The second clause, a selector byte run on the decoder alone, rests on the model's choice of log 1 (DESIGN CHOICE);
the third, that the word withFetchWord places, for handle 0, is run by the very next step, on that of log 6 (DESIGN
CHOICE). -/
def Obligations.StepRunsDecodedInstruction : Prop :=
  (∀ (s : State) (p : PortCycle) (rest : List Input),
    s.inputs = .cycle p :: rest → p.rst = false → p.evValid = true →
      step s = exec (decodeEvent (eventWord p.evKind p.evOperand))
        { s with inputs := rest, context := p.handle, stage := .run, response := none }) ∧
  (∀ (s : State) (b : Byte) (rest : List Input),
    s.inputs = .selector b :: rest → step s = exec (decodeSelectorRow b) { s with inputs := rest, response := none }) ∧
  (∀ (s : State) (nbits w : Nat) (i : Instr),
    decodeTableWord nbits w = some i →
      step (s.withFetchWord nbits w) = exec i
        (if isEvent i then { s with context := ⟨0⟩, stage := .run, response := none } else { s with response := none }))

/-- Rule R41: with neither `ev_valid` nor `rst` nothing changes, and nothing is answered; and an exhausted host is such
a port (log 2, DESIGN CHOICE). -/
def Obligations.IdlePortChangesNothing : Prop :=
  (∀ (s : State) (p : PortCycle) (rest : List Input),
    s.inputs = .cycle p :: rest → p.rst = false → p.evValid = false →
      step s = .next { s with inputs := rest, response := none }) ∧
  (∀ s : State, s.inputs = [] → step s = .next { s with response := none })

/-- Rule R41: no rule reads the two bus pins. -/
def Obligations.PinsUnread : Prop :=
  ∀ (s : State) (p : PortCycle) (rest : List Input) (scl sda : Bool),
    step (s.facing (.cycle p :: rest)) = step (s.facing (.cycle { p with scl := scl, sda := sda } :: rest))

/-- RESET puts every instance into its initial state and leaves the number of instances, from any state, and returns
nothing (rule R100). The statement asks nothing of `ev_valid`: where an event comes in the same step reset wins and the
event is dropped, which is rule R93, the spec's own decision D7 (log 10, DESIGN CHOICE). -/
def Obligations.ResetPutsInitialState : Prop :=
  ∀ (s : State) (p : PortCycle) (rest : List Input),
    s.inputs = .cycle p :: rest → p.rst = true →
      ∃ t, step s = .next t ∧ t.devices.length = s.devices.length ∧
        (∀ d ∈ t.devices, d.phase = .awaitingTransactionStart ∧ d.sel = .unrecognized) ∧
        t.response = none ∧ t.inputs = rest

/-- Rule R58: CREATE, in the initialisation stage, appends one instance in the reset state and returns its handle. -/
def Obligations.CreateAppendsInstance : Prop :=
  ∀ (s : State) (rest : List Input),
    s.inputs = .create :: rest → s.stage = .initialisation →
      step s = .next { s with
        devices := s.devices ++ [⟨.awaitingTransactionStart, .unrecognized⟩]
        response := some (.created ⟨s.devices.length⟩)
        inputs := rest }

/-- An event whose handle names no instance is the fault, whatever the event (rule R61). Its cause code 1 is rule R89,
the spec's own decision D10 (log 10, DESIGN CHOICE). -/
def Obligations.UnknownHandleFaults : Prop :=
  (∀ (i : Instr) (s : State),
    isEvent i = true → s.devices.length ≤ s.context.index → exec i s = .fault (.hostIntegration s.context)) ∧
  (∀ (s : State) (x : Input) (rest : List Input) (h : Handle) (i : Instr),
    s.inputs = x :: rest → x.event? = some (h, i) → s.devices.length ≤ h.index →
      step s = .fault (.hostIntegration h) ∧ causeCode (step s) = some 1)

/-- Rule R91: there is no other fault. -/
def Obligations.FaultOnlyFromUnknownHandle : Prop :=
  ∀ (s : State) (f : Fault),
    step s = .fault f →
      ∃ (x : Input) (rest : List Input) (h : Handle) (i : Instr),
        s.inputs = x :: rest ∧ x.event? = some (h, i) ∧ s.devices.length ≤ h.index ∧ f = .hostIntegration h

/-- The two refusals are a CREATE in the run stage (rule R59; log 4) and two presentations at one time (rule R105), and
nothing else is refused. That an overlap is refused whatever its two cycles hold is the model's choice (log 12, DESIGN
CHOICE). -/
def Obligations.RefusalsAreTheHostsBreaches : Prop :=
  ∀ (s : State) (r : Refusal),
    step s = .refused r ↔
      (r = .createInRunStage ∧ s.stage = .run ∧ ∃ rest, s.inputs = .create :: rest) ∨
      (r = .overlappingEvents ∧ ∃ p q rest, s.inputs = .overlap p q :: rest)

/-- Rules R56, R59 and R63: the run stage is never left, the number of instances does not change in it, and in no stage
does an instance cease to exist. -/
def Obligations.RunStageIsForever : Prop :=
  ∀ s t : State,
    step s = .next t →
      (s.stage = .run → t.stage = .run ∧ t.devices.length = s.devices.length) ∧
      s.devices.length ≤ t.devices.length

/-- Rule R59: a step with an event or a RESET is in the run stage, whichever stage came before, and no other step
changes the stage. That a RESET, too, belongs to the run stage alone is DEDUCED (log 4). -/
def Obligations.EventOrResetBeginsRunStage : Prop :=
  ∀ s t : State,
    step s = .next t →
      (∀ x rest, s.inputs = x :: rest → x.event?.isSome = true ∨ x.isReset = true → t.stage = .run) ∧
      ((∀ x rest, s.inputs = x :: rest → x.event? = none ∧ x.isReset = false) → t.stage = s.stage)

/-! ### Reset and the invariant -/

/-- The instance that is there after reset holds the two reset values of rule R20, all zeros in the codes. That there is
one, with handle 0, is the default N_DEVICES of rule R3 (log 5, DESIGN CHOICE). -/
def Obligations.ResetState : Prop :=
  (∀ (n : Nat), ∀ d ∈ (State.resetWith n).devices,
    d.phase = .awaitingTransactionStart ∧ d.sel = .unrecognized ∧ phaseCode d.phase = 0x0#4 ∧
      registerCode d.sel = 0b00#2) ∧
  State.reset.deviceAt ⟨0⟩ = some ⟨.awaitingTransactionStart, .unrecognized⟩ ∧ State.reset.devices.length = 1

/-- The invariant holds after reset, with any number of instances. -/
def Obligations.ResetHasInvariant : Prop :=
  State.reset.Inv ∧ ∀ n : Nat, (State.resetWith n).Inv

/-- Every step keeps the invariant: every instance in one of the 22 reachable states, and untouched in the
initialisation stage. -/
def Obligations.StepKeepsInvariant : Prop :=
  ∀ s t : State, s.Inv → step s = .next t → t.Inv

/-- Exactly the 22 listed states are reached from reset by events: rule R21, which the spec marks as its own inference.
The clause that no inputs of any kind (resets, CREATEs and the decoder bytes of log 1 among them) reach another goes beyond
the rule, and so does State.reset's one instance (log 5, DESIGN CHOICE). -/
def Obligations.ReachableExactly : Prop :=
  (∀ d : Device,
    (∃ (inputs : List Input) (t : State),
      (∀ x ∈ inputs, x.event?.isSome = true) ∧ runInputs State.reset inputs = .next t ∧ t.deviceAt ⟨0⟩ = some d) ↔
      d.isReachable = true) ∧
  (∀ (inputs : List Input) (t : State),
    runInputs State.reset inputs = .next t → ∀ d ∈ t.devices, d.isReachable = true) ∧
  ∃ l : List Device, l.Nodup ∧ l.length = 22 ∧ ∀ d, d ∈ l ↔ d.isReachable = true

/-- A system in which nothing is selected stays so in every step that is no WRITE of 0x66 or 0xC8; the step lemma under
rules R112 and R114. That a byte at the decoder alone selects nothing is the model's choice (log 1, DESIGN CHOICE). -/
def Obligations.StepKeepsNothingSelected : Prop :=
  ∀ s t : State,
    (∀ d ∈ s.devices, d.sel = .unrecognized) → step s = .next t →
      (∀ x, s.inputs.head? = some x → ∀ g b, x.event? = some (g, .write b) → b ≠ 0x66#8 ∧ b ≠ 0xC8#8) →
        ∀ d ∈ t.devices, d.sel = .unrecognized

/-! ### Transactions -/

/-- Rule R70: three READs of Product ID. -/
def Obligations.ProductIdCycle : Prop :=
  ∀ (s : State) (h : Handle),
    s.deviceAt h = some ⟨.readByte1, .productId⟩ →
      bytesRead s h (scriptInputs h [.rd, .rd, .rd]) = [0x08#8, 0x87#8, 0x5B#8] ∧
      ∃ t, runInputs s (scriptInputs h [.rd, .rd, .rd]) = .next t ∧
        t.deviceAt h = some ⟨.awaitingTransactionStart, .productId⟩

/-- Rule R71: six READs of Measurement. -/
def Obligations.MeasurementCycle : Prop :=
  ∀ (s : State) (h : Handle),
    s.deviceAt h = some ⟨.readByte1, .measurement⟩ →
      bytesRead s h (scriptInputs h [.rd, .rd, .rd, .rd, .rd, .rd])
        = [0x65#8, 0xD5#8, 0x52#8, 0x5D#8, 0xD1#8, 0x13#8] ∧
      ∃ t, runInputs s (scriptInputs h [.rd, .rd, .rd, .rd, .rd, .rd]) = .next t ∧
        t.deviceAt h = some ⟨.awaitingTransactionStart, .measurement⟩

/-- Rule R83: STOP leaves the position of an unfinished transaction standing, and rule R108: a bare READ after it goes
on where the last one left off. -/
def Obligations.StopKeepsPosition : Prop :=
  ∀ (s : State) (h : Handle) (d : Device),
    s.deviceAt h = some d →
      (∀ b : Byte, ∃ t, runInputs s (scriptInputs h [.connect false none, .wr b, .stop none]) = .next t ∧
        t.deviceAt h = some ⟨.writeByte2, decodeSelector b⟩) ∧
      (∀ b1 b2 : Byte, ∃ t,
        runInputs s (scriptInputs h [.connect false none, .wr b1, .wr b2, .stop none]) = .next t ∧
        t.deviceAt h = some ⟨.writeByte3, decodeSelector b2⟩) ∧
      (d.sel = .measurement → ∃ t,
        runInputs s (scriptInputs h [.connect true none, .rd, .rd, .stop none]) = .next t ∧
        t.deviceAt h = some ⟨.readByte3, .measurement⟩ ∧
        bytesRead s h (scriptInputs h [.connect true none, .rd, .rd, .stop none, .rd]) = [0x65#8, 0xD5#8, 0x52#8])

/-- Rule R77 over whole write transactions: of any number of bytes the last one written selects, from every state; and
the phase that the write counter leaves (rule R80 (a)) and STOP keeps (rule R81). -/
def Obligations.LastWrittenByteSelects : Prop :=
  ∀ (s : State) (h : Handle) (d : Device) (bytes : List Byte) (b : Byte),
    s.deviceAt h = some d →
      (∃ t, runInputs s (scriptInputs h (writeTransaction (bytes ++ [b]))) = .next t ∧
        t.deviceAt h = some
          ⟨if bytes.length = 0 then .writeByte2 else if bytes.length = 1 then .writeByte3
            else .awaitingTransactionStart, decodeSelector b⟩) ∧
      (∃ t d', runInputs s (scriptInputs h ((bytes ++ [b]).map .wr)) = .next t ∧
        t.deviceAt h = some d' ∧ d'.sel = decodeSelector b)

/-- Select a register by its byte, then fetch any number of bytes: the response table of the register, then 0x00 for
every byte past its end; the position it leaves; from every state of every instance (rules R32, R69, R77, R110). -/
def Obligations.SelectThenFetch : Prop :=
  ∀ (s : State) (h : Handle) (d : Device) (b : Byte) (n : Nat),
    s.deviceAt h = some d →
      bytesRead s h (scriptInputs h (selectByte b ++ fetchBytes n))
        = (responseTable (decodeSelector b) ++ List.replicate n 0x00#8).take n ∧
      ∃ t, runInputs s (scriptInputs h (selectByte b ++ fetchBytes n)) = .next t ∧
        t.deviceAt h = some
          ⟨if n = 0 then .readByte1
            else if n < (responseTable (decodeSelector b)).length then readPhase n
            else .awaitingTransactionStart, decodeSelector b⟩

/-- After a reset every byte read is 0x00, from every instance and whatever the host presents, until a WRITE of 0x66 or
0xC8: rule R114, which the spec marks as its own inference. That a byte 0x66 at the decoder alone selects nothing is the
model's choice (log 1, DESIGN CHOICE). -/
def Obligations.NothingSelectedReadsZero : Prop :=
  ∀ (s : State) (p : PortCycle) (inputs : List Input) (h : Handle),
    p.rst = true →
    (∀ x ∈ inputs, ∀ g b, x.event? = some (g, .write b) → b ≠ 0x66#8 ∧ b ≠ 0xC8#8) →
      ∀ b ∈ bytesRead s h (.cycle p :: inputs), b = 0x00#8

/-! ### Whole runs and instances -/

/-- Rules R104 to R107, with every CREATE behind: whatever a dutiful host presents in the run stage, in whatever order,
every event is answered in its own step and the run goes to its end. (A CREATE before the first event is
CreateAppendsInstance.) -/
def Obligations.DutifulHostIsServed : Prop :=
  ∀ (inputs : List Input) (s : State),
    (∀ x ∈ inputs, x.dutiful s.devices.length = true) →
      ∃ t, runInputs s inputs = .next t ∧ t.inputs = [] ∧ t.devices.length = s.devices.length

/-- Rules R22, R37 and R97: what can be observed of one instance depends on that instance alone: two systems that agree
on it, on the number of instances, the stage and the inputs give the same answers from it, whatever the other instances
hold and whatever was answered before. -/
def Obligations.InstanceIsolation : Prop :=
  ∀ (k : Nat) (s t : State) (h : Handle),
    s.inputs = t.inputs → s.stage = t.stage → s.devices.length = t.devices.length → s.deviceAt h = t.deviceAt h →
      answersOf h (transcript k s) = answersOf h (transcript k t)

/-- Rule R37: events for different instances commute as far as the states are concerned. -/
def Obligations.EventsForInstancesCommute : Prop :=
  ∀ (s : State) (x y : Input) (g h : Handle) (i j : Instr),
    x.event? = some (g, i) → y.event? = some (h, j) → g ≠ h →
      g.index < s.devices.length → h.index < s.devices.length →
        ∃ t u : State, runInputs s [x, y] = .next t ∧ runInputs s [y, x] = .next u ∧ t.devices = u.devices
end

