-- ==== Sys2Proof/Laws/Decode.lean ====
section
/-! SUPPORT. A word as a number, and the fields of a word that was put together from them. -/

namespace Sys2Proof

/-- Two fields side by side, as a number: the more significant one counts in steps of the other's range. -/
theorem toNat_append_eq {n m : Nat} (x : BitVec n) (y : BitVec m) : (x ++ y).toNat = x.toNat * 2 ^ m + y.toNat := by
  rw [BitVec.toNat_append, ← Nat.shiftLeft_add_eq_or_of_lt y.isLt, Nat.shiftLeft_eq]

theorem eventWord_toNat (k : BitVec 2) (o : Byte) : (eventWord k o).toNat = k.toNat * 256 + o.toNat :=
  toNat_append_eq k o

theorem connectOperand_toNat (a : Address) (r : Bool) : (connectOperand a r).toNat = 2 * a.toNat + r.toNat := by
  have h : (connectOperand a r).toNat = a.toNat * 2 ^ 1 + (BitVec.ofBool r).toNat := toNat_append_eq a _
  rw [h, BitVec.toNat_ofBool]; omega

theorem eventKind_toNat (w : EventWord) : (eventKind w).toNat = w.toNat / 256 := by
  have := w.isLt
  simp only [eventKind, BitVec.extractLsb'_toNat, Nat.shiftRight_eq_div_pow]
  omega

theorem eventOperand_toNat (w : EventWord) : (eventOperand w).toNat = w.toNat % 256 := by
  simp [eventOperand, BitVec.extractLsb'_toNat]

theorem operandAddress_toNat (o : Byte) : (operandAddress o).toNat = o.toNat / 2 := by
  have := o.isLt
  simp only [operandAddress, BitVec.extractLsb'_toNat, Nat.shiftRight_eq_div_pow]
  omega

theorem operandIsRead_eq (o : Byte) : operandIsRead o = decide (o.toNat % 2 = 1) := by
  simp only [operandIsRead, BitVec.getLsbD, Nat.testBit_zero]

@[simp] theorem eventKind_eventWord (k : BitVec 2) (o : Byte) : eventKind (eventWord k o) = k := by
  have := o.isLt
  apply BitVec.eq_of_toNat_eq
  rw [eventKind_toNat, eventWord_toNat]; omega

@[simp] theorem eventOperand_eventWord (k : BitVec 2) (o : Byte) : eventOperand (eventWord k o) = o := by
  have := o.isLt
  apply BitVec.eq_of_toNat_eq
  rw [eventOperand_toNat, eventWord_toNat]; omega

@[simp] theorem operandAddress_connectOperand (a : Address) (r : Bool) : operandAddress (connectOperand a r) = a := by
  have := r.toNat_lt
  apply BitVec.eq_of_toNat_eq
  rw [operandAddress_toNat, connectOperand_toNat]; omega

@[simp] theorem operandIsRead_connectOperand (a : Address) (r : Bool) : operandIsRead (connectOperand a r) = r := by
  rw [operandIsRead_eq, connectOperand_toNat]
  cases r <;> simp

/-- The word put together from its own fields. -/
@[simp] theorem eventWord_fields (w : EventWord) : eventWord (eventKind w) (eventOperand w) = w := by
  apply BitVec.eq_of_toNat_eq
  rw [eventWord_toNat, eventKind_toNat, eventOperand_toNat]; omega

/-- The operand of a CONNECT put together from its own fields. -/
@[simp] theorem connectOperand_fields (o : Byte) : connectOperand (operandAddress o) (operandIsRead o) = o := by
  apply BitVec.eq_of_toNat_eq
  rw [connectOperand_toNat, operandAddress_toNat, operandIsRead_eq]
  by_cases h : o.toNat % 2 = 1 <;> simp [h] <;> omega

theorem decodeEvent_connect (a : Address) (r : Bool) :
    decodeEvent (eventWord 0b00#2 (connectOperand a r)) = .connect a r := by
  simp [decodeEvent]

theorem decodeEvent_read (o : Byte) : decodeEvent (eventWord 0b01#2 o) = .read o := by
  simp [decodeEvent]

theorem decodeEvent_write (b : Byte) : decodeEvent (eventWord 0b10#2 b) = .write b := by
  simp [decodeEvent]

theorem decodeEvent_disconnect (b : Byte) : decodeEvent (eventWord 0b11#2 b) = .disconnect b := by
  simp [decodeEvent]

end Sys2Proof
end

