-- ==== Sys2Proof/Laws/State.lean ====
section
/-! SUPPORT. One lemma per field for each update of State, so that no proof unfolds a record update. -/

namespace Sys2Proof.Machine

variable (s : State) (h : Handle) (l : List Input)

@[simp] theorem deliver_devices : (deliver s h).devices = s.devices := rfl
@[simp] theorem deliver_stage : (deliver s h).stage = .run := rfl
@[simp] theorem deliver_context : (deliver s h).context = h := rfl
@[simp] theorem deliver_response : (deliver s h).response = none := rfl
@[simp] theorem deliver_inputs : (deliver s h).inputs = s.inputs := rfl

@[simp] theorem idle_devices : (idle s).devices = s.devices := rfl
@[simp] theorem idle_stage : (idle s).stage = s.stage := rfl
@[simp] theorem idle_context : (idle s).context = s.context := rfl
@[simp] theorem idle_response : (idle s).response = none := rfl
@[simp] theorem idle_inputs : (idle s).inputs = s.inputs := rfl

@[simp] theorem resetInstances_devices : (resetInstances s).devices = s.devices.map fun _ => Device.reset := rfl
@[simp] theorem resetInstances_stage : (resetInstances s).stage = .run := rfl
@[simp] theorem resetInstances_context : (resetInstances s).context = s.context := rfl
@[simp] theorem resetInstances_response : (resetInstances s).response = none := rfl
@[simp] theorem resetInstances_inputs : (resetInstances s).inputs = s.inputs := rfl

@[simp] theorem facing_devices : (s.facing l).devices = s.devices := rfl
@[simp] theorem facing_stage : (s.facing l).stage = s.stage := rfl
@[simp] theorem facing_context : (s.facing l).context = s.context := rfl
@[simp] theorem facing_response : (s.facing l).response = s.response := rfl
@[simp] theorem facing_inputs : (s.facing l).inputs = l := rfl
@[simp] theorem facing_facing (m : List Input) : (s.facing l).facing m = s.facing m := rfl
@[simp] theorem deliver_facing : (deliver s h).facing l = deliver (s.facing l) h := rfl

@[simp] theorem resetWith_devices (n : Nat) : (State.resetWith n).devices = List.replicate n Device.reset := rfl
@[simp] theorem resetWith_stage (n : Nat) : (State.resetWith n).stage = .initialisation := rfl
@[simp] theorem resetWith_inputs (n : Nat) : (State.resetWith n).inputs = [] := rfl

@[simp] theorem Device.reset_phase : Device.reset.phase = .awaitingTransactionStart := rfl
@[simp] theorem Device.reset_sel : Device.reset.sel = .unrecognized := rfl

end Sys2Proof.Machine
end

