-- ==== Sys2Proof/Laws/Ops.lean ====
section
/-! SUPPORT. For each shared operation, once, everything it can do. -/

namespace Sys2Proof.Machine

/-! ### Instance selection -/

theorem onInstance_of_some {s : State} {d : Device} (e : Device → Device × Answer)
    (h : s.devices[s.context.index]? = some d) :
    onInstance s e = .next { s with
      devices := s.devices.set s.context.index (e d).1
      response := some (.ofInstance s.context (e d).2) } := by
  simp [onInstance, h]

theorem onInstance_of_none {s : State} (e : Device → Device × Answer)
    (h : s.devices[s.context.index]? = none) :
    onInstance s e = .fault (.hostIntegration s.context) := by
  simp [onInstance, h, raiseHostIntegrationFault]

/-- If instance selection answers a next state, the handle named an instance, and only that instance and the response
are new. -/
theorem onInstance_next {s t : State} {e : Device → Device × Answer} (h : onInstance s e = .next t) :
    ∃ d, s.devices[s.context.index]? = some d ∧
      t = { s with
        devices := s.devices.set s.context.index (e d).1
        response := some (.ofInstance s.context (e d).2) } := by
  cases hd : s.devices[s.context.index]? with
  | none => simp [onInstance_of_none e hd] at h
  | some d => exact ⟨d, rfl, by simpa [onInstance_of_some e hd] using h.symm⟩

/-! ### The meanings, over instance selection -/

/-- What an event does to an instance and what the instance answers; nothing for a row of the decoder. -/
def eventOn : Instr → Option (Device → Device × Answer)
  | .connect _ r => some (connectDevice r)
  | .read _ => some readDevice
  | .write b => some (writeDevice b)
  | .disconnect _ => some disconnectDevice
  | .selMeasurement => none
  | .selProductId => none
  | .selUnrecognized _ => none

theorem exec_of_eventOn {i : Instr} {e : Device → Device × Answer} (h : eventOn i = some e) (s : State) :
    exec i s = onInstance s e := by
  cases i <;> simp_all [eventOn] <;> subst h <;> rfl

theorem eventOn_of_isEvent {i : Instr} (h : isEvent i = true) : ∃ e, eventOn i = some e := by
  cases i <;> simp_all [isEvent, eventOn]

theorem isEvent_decodeEvent (w : EventWord) : isEvent (decodeEvent w) = true := by
  unfold decodeEvent; split_ifs <;> rfl

/-- If an instruction answers a next state, it is an event applied to the instance the handle names, or a row of the
decoder that changed the response alone. -/
theorem exec_next {i : Instr} {s t : State} (h : exec i s = .next t) :
    (∃ e d, eventOn i = some e ∧ s.devices[s.context.index]? = some d ∧
      t = { s with
        devices := s.devices.set s.context.index (e d).1
        response := some (.ofInstance s.context (e d).2) }) ∨
    (eventOn i = none ∧ ∃ r, t = { s with response := some (.register r) }) := by
  cases hi : eventOn i with
  | some e =>
    rw [exec_of_eventOn hi] at h
    obtain ⟨d, hd, rfl⟩ := onInstance_next h
    exact .inl ⟨e, d, rfl, hd, rfl⟩
  | none =>
    refine .inr ⟨rfl, ?_⟩
    cases i with
    | connect a r => simp [eventOn] at hi
    | read o => simp [eventOn] at hi
    | write b => simp [eventOn] at hi
    | disconnect b => simp [eventOn] at hi
    | selMeasurement => exact ⟨_, (Host.Outcome.next.inj h).symm⟩
    | selProductId => exact ⟨_, (Host.Outcome.next.inj h).symm⟩
    | selUnrecognized b => exact ⟨_, (Host.Outcome.next.inj h).symm⟩

/-- Every byte at the register-address decoder is answered with its register, and changes nothing else. -/
theorem exec_selectorRow (b : Byte) (s : State) :
    exec (decodeSelectorRow b) s = .next { s with response := some (.register (decodeSelector b)) } := by
  unfold decodeSelectorRow
  split_ifs with h1 h2
  · subst h1; rfl
  · subst h2; rfl
  · rfl

/-! ### CREATE -/

/-- If CREATE answers a next state, the stage was the initialisation stage and one fresh instance has been appended. -/
theorem createInstance_next {s t : State} (h : createInstance s = .next t) :
    s.stage = .initialisation ∧
      t = { s with
        devices := s.devices ++ [Device.reset]
        response := some (.created ⟨s.devices.length⟩) } := by
  cases hs : s.stage with
  | run => simp [createInstance, hs] at h
  | initialisation => exact ⟨rfl, by simpa [createInstance, hs] using h.symm⟩

/-! ### The step -/

theorem step_nil {s : State} (h : s.inputs = []) : step s = .next (idle s) := by
  simp [step, fetch, h]

theorem step_create {s : State} {rest : List Input} (h : s.inputs = .create :: rest) :
    step s = createInstance { s with inputs := rest } := by
  simp [step, fetch, h]

theorem step_selector {s : State} {b : Byte} {rest : List Input} (h : s.inputs = .selector b :: rest) :
    step s = exec (decodeSelectorRow b) (idle { s with inputs := rest }) := by
  simp [step, fetch, h]

theorem step_overlap {s : State} {p q : PortCycle} {rest : List Input} (h : s.inputs = .overlap p q :: rest) :
    step s = .refused .overlappingEvents := by
  simp [step, fetch, h]

theorem step_reset {s : State} {x : Input} {rest : List Input} (h : s.inputs = x :: rest) (hx : x.isReset = true) :
    step s = .next (resetInstances { s with inputs := rest }) := by
  cases x with
  | cycle p => simp only [Input.isReset] at hx; simp [step, fetch, h, fetchCycle, hx]
  | create => simp [Input.isReset] at hx
  | selector b => simp [Input.isReset] at hx
  | overlap p q => simp [Input.isReset] at hx

theorem step_event {s : State} {x : Input} {rest : List Input} {h : Handle} {i : Instr}
    (hs : s.inputs = x :: rest) (hx : x.event? = some (h, i)) :
    step s = exec i (deliver { s with inputs := rest } h) := by
  cases x with
  | cycle p =>
    simp only [Input.event?] at hx
    split at hx
    · simp_all [step, fetch, fetchCycle]
    · simp at hx
  | create => simp [Input.event?] at hx
  | selector b => simp [Input.event?] at hx
  | overlap p q => simp [Input.event?] at hx

theorem step_idleCycle {s : State} {p : PortCycle} {rest : List Input} (h : s.inputs = .cycle p :: rest)
    (hr : p.rst = false) (hv : p.evValid = false) : step s = .next (idle { s with inputs := rest }) := by
  simp [step, fetch, h, fetchCycle, hr, hv]

/-- Every input a step can meet: nothing, CREATE, a decoder byte, two events at once, a reset, an event, or an idle
cycle. -/
theorem inputs_cases (s : State) :
    s.inputs = [] ∨ ∃ x rest, s.inputs = x :: rest ∧
      (x = .create ∨ (∃ b, x = .selector b) ∨ (∃ p q, x = .overlap p q) ∨ x.isReset = true ∨
        (∃ h i, x.event? = some (h, i)) ∨ (∃ p, x = .cycle p ∧ p.rst = false ∧ p.evValid = false)) := by
  cases hs : s.inputs with
  | nil => exact .inl rfl
  | cons x rest =>
    refine .inr ⟨x, rest, rfl, ?_⟩
    cases x with
    | create => exact .inl rfl
    | selector b => exact .inr (.inl ⟨b, rfl⟩)
    | overlap p q => exact .inr (.inr (.inl ⟨p, q, rfl⟩))
    | cycle p =>
      cases hr : p.rst with
      | true => exact .inr (.inr (.inr (.inl (by simpa [Input.isReset] using hr))))
      | false =>
        cases hv : p.evValid with
        | true => exact .inr (.inr (.inr (.inr (.inl ⟨_, _, by simp [Input.event?, hr, hv]; exact ⟨rfl, rfl⟩⟩))))
        | false => exact .inr (.inr (.inr (.inr (.inr ⟨p, rfl, hr, hv⟩))))

/-- The instruction of an input is one of the four events. -/
theorem isEvent_of_event? {x : Input} {h : Handle} {i : Instr} (hx : x.event? = some (h, i)) : isEvent i = true := by
  cases x with
  | cycle p =>
    simp only [Input.event?] at hx
    split at hx
    · obtain ⟨-, rfl⟩ := Prod.mk.inj (Option.some.inj hx)
      exact isEvent_decodeEvent _
    · simp at hx
  | create => simp [Input.event?] at hx
  | selector b => simp [Input.event?] at hx
  | overlap p q => simp [Input.event?] at hx

/-! ### The instance a handle names -/

theorem deviceAt_eq (s : State) (h : Handle) : s.deviceAt h = s.devices[h.index]? := rfl

/-- Writing an instance shows at its own handle and at no other. -/
theorem getElem?_set_handle (l : List Device) (c h : Handle) (d d' : Device) (hd : l[c.index]? = some d) :
    (l.set c.index d')[h.index]? = if h = c then some d' else l[h.index]? := by
  obtain ⟨c⟩ := c; obtain ⟨h⟩ := h
  have hlt : c < l.length := (List.getElem?_eq_some_iff.mp hd).1
  by_cases hc : h = c
  · subst hc; simp [hlt]
  · simp [hc, Ne.symm hc]

/-! ### The response multiplexer -/

/-- Where the ROM has a byte for the pair, it is the byte of a READ, and the read counter gives the phase after it. -/
theorem respMux_of_rom {sel : Register} {phase : Phase} {idx : Nat} {b : Byte}
    (hi : readIndex phase = some idx) (hb : rom sel idx = some b) : respMux sel phase = (b, readNext sel idx) := by
  simp [respMux, hi, hb]

/-- Everything the multiplexer can answer: a ROM byte, or the default arm. -/
theorem respMux_cases (sel : Register) (phase : Phase) :
    (∃ idx b, readIndex phase = some idx ∧ rom sel idx = some b ∧ respMux sel phase = (b, readNext sel idx)) ∨
      respMux sel phase = (sentinel, .awaitingTransactionStart) := by
  cases hi : readIndex phase with
  | none => exact .inr (by simp [respMux, hi])
  | some idx =>
    cases hb : rom sel idx with
    | none => exact .inr (by simp [respMux, hi, hb])
    | some b => exact .inl ⟨idx, b, rfl, hb, respMux_of_rom hi hb⟩

/-! ### Runs -/

@[simp] theorem runInputs_nil (s : State) : runInputs s [] = .next (s.facing []) := rfl

/-- A step of a run, and the rest of the run. -/
theorem run_succ (k : Nat) {s t : State} (h : step s = .next t) : core.run (k + 1) s = core.run k t := by
  simp only [Host.Core.run]
  rw [show core.step s = .next t from h]

theorem transcript_succ (k : Nat) {s t : State} (h : step s = .next t) :
    transcript (k + 1) s = t.response.toList ++ transcript k t := by
  simp [transcript, h]

end Sys2Proof.Machine
end

