-- ==== Sys2Proof/Laws/PerInstr.lean ====
section
/-! SUPPORT. Statements made once per instruction: each instruction's word meets the match and mask of its row of
spec/opcode_table.json. -/

namespace Sys2Proof.Laws.RowMatch

/-- `match` and `mask` of the row of spec/opcode_table.json that an instruction stands for. -/
def row : Instr → Nat × Nat
  | .connect _ _ => (0x000, 0x300)
  | .read _ => (0x100, 0x300)
  | .write _ => (0x200, 0x300)
  | .disconnect _ => (0x300, 0x300)
  | .selMeasurement => (0x66, 0xFF)
  | .selProductId => (0xC8, 0xFF)
  | .selUnrecognized _ => (0x00, 0x00)

/-- A word as the number the table gives it. -/
def number : CodeWord → Nat
  | .event w => w.toNat
  | .selector b => b.toNat

/-- "a word `w` is the row's event when `w and mask == match`" (30_encoding.md, opening), and a word of the default row
is neither of the two selectors. -/
def Statement (i : Instr) : Prop :=
  i.wf = true →
    number (encode i) &&& (row i).2 = (row i).1 ∧
      ((row i).2 = 0 → number (encode i) ≠ 0x66 ∧ number (encode i) ≠ 0xC8)

/-- The two kind bits of an event word, as the mask 0x300 leaves them. -/
theorem kind_mask (k : BitVec 2) (o : Byte) : (eventWord k o).toNat &&& 0x300 = k.toNat * 256 := by
  have hk := k.isLt
  have bits : ∀ k : BitVec 2, ∀ i : Fin 10,
      (BitVec.ofNat 10 (k.toNat * 256)).getLsbD i = (!decide (i.val < 8) && k.getLsbD (i - 8)) := by decide
  have mask : ∀ i : Fin 10, (0x300#10).getLsbD i = !decide (i.val < 8) := by decide
  have word : eventWord k o &&& 0x300#10 = BitVec.ofNat 10 (k.toNat * 256) := by
    apply BitVec.eq_of_getLsbD_eq
    intro i hi
    have split : (eventWord k o).getLsbD i = if i < 8 then o.getLsbD i else k.getLsbD (i - 8) :=
      BitVec.getLsbD_append (x := k) (y := o) (i := i)
    rw [BitVec.getLsbD_and, split, mask ⟨i, hi⟩, bits k ⟨i, hi⟩]
    by_cases h8 : i < 8 <;> simp [h8]
  have := congrArg BitVec.toNat word
  simpa [BitVec.toNat_and, BitVec.toNat_ofNat, Nat.mod_eq_of_lt (show k.toNat * 256 < 1024 by omega)] using this

theorem connect (address : Address) (isRead : Bool) : Statement (.connect address isRead) :=
  fun _ => ⟨kind_mask 0b00#2 _, fun h => by simp [row] at h⟩

theorem read (operand : Byte) : Statement (.read operand) :=
  fun _ => ⟨kind_mask 0b01#2 _, fun h => by simp [row] at h⟩

theorem write (byte : Byte) : Statement (.write byte) :=
  fun _ => ⟨kind_mask 0b10#2 _, fun h => by simp [row] at h⟩

theorem disconnect (byte : Byte) : Statement (.disconnect byte) :=
  fun _ => ⟨kind_mask 0b11#2 _, fun h => by simp [row] at h⟩

theorem selMeasurement : Statement .selMeasurement := fun _ => by decide

theorem selProductId : Statement .selProductId := fun _ => by decide

theorem selUnrecognized (selector : Byte) : Statement (.selUnrecognized selector) := by
  intro h
  simp only [Instr.wf, Bool.and_eq_true, bne_iff_ne] at h
  refine ⟨by simp [row], fun _ => ⟨fun e => h.1 ?_, fun e => h.2 ?_⟩⟩ <;>
    exact BitVec.eq_of_toNat_eq (by simpa [number, encode] using e)

end Sys2Proof.Laws.RowMatch
end

