-- ==== Sys2Proof/Laws/Runs.lean ====
section
/-! SUPPORT. What one presented input does to a run and to what is observed of it, so that a proof about a sequence of
events goes through it event by event. -/

namespace Sys2Proof.Machine

/-- A step takes exactly one input: the state after it faces what is left. -/
theorem facing_of_step {s t : State} {x : Input} {l : List Input} (h : step (s.facing (x :: l)) = .next t) :
    t.facing l = t := by
  have key : t.inputs = l := by
    rcases inputs_cases (s.facing (x :: l)) with hs | ⟨y, rest, hs, hc⟩
    · simp at hs
    · obtain ⟨rfl, rfl⟩ : x = y ∧ l = rest := by simpa using hs
      rcases hc with rfl | ⟨b, rfl⟩ | ⟨p, q, rfl⟩ | hr | ⟨g, i, he⟩ | ⟨p, rfl, hr, hv⟩
      · rw [step_create hs] at h; obtain ⟨-, rfl⟩ := createInstance_next h; rfl
      · rw [step_selector hs] at h
        rcases exec_next h with ⟨e, d, -, -, rfl⟩ | ⟨-, r, rfl⟩ <;> rfl
      · simp [step_overlap hs] at h
      · rw [step_reset hs hr] at h; obtain rfl := Host.Outcome.next.inj h; rfl
      · rw [step_event hs he] at h
        rcases exec_next h with ⟨e, d, -, -, rfl⟩ | ⟨-, r, rfl⟩ <;> rfl
      · rw [step_idleCycle hs hr hv] at h; obtain rfl := Host.Outcome.next.inj h; rfl
  subst key; rfl

theorem runInputs_cons {s t : State} {x : Input} {l : List Input} (h : step (s.facing (x :: l)) = .next t) :
    runInputs s (x :: l) = runInputs t l := by
  rw [runInputs, List.length_cons, run_succ _ h, runInputs, facing_of_step h]

theorem responsesTo_cons {s t : State} {x : Input} {l : List Input} (h : step (s.facing (x :: l)) = .next t) :
    responsesTo s (x :: l) = t.response.toList ++ responsesTo t l := by
  rw [responsesTo, List.length_cons, transcript_succ _ h, responsesTo, facing_of_step h]

/-- An event for an instance that exists: what the step leaves. -/
theorem step_facing_event {s : State} {x : Input} {l : List Input} {h : Handle} {i : Instr} {d : Device}
    {e : Device → Device × Answer} (hx : x.event? = some (h, i)) (he : eventOn i = some e)
    (hd : s.deviceAt h = some d) :
    step (s.facing (x :: l)) = .next {
      devices := s.devices.set h.index (e d).1
      stage := .run
      context := h
      response := some (.ofInstance h (e d).2)
      inputs := l } := by
  rw [step_event rfl hx, exec_of_eventOn he, onInstance_of_some (d := d) e (by simpa [deviceAt_eq] using hd)]
  rfl

/-- The system after an event for instance `h`. -/
def afterEvent (s : State) (h : Handle) (r : Device × Answer) : State :=
  { devices := s.devices.set h.index r.1, stage := .run, context := h, response := some (.ofInstance h r.2), inputs := [] }

@[simp] theorem afterEvent_devices (s : State) (h : Handle) (r : Device × Answer) :
    (afterEvent s h r).devices = s.devices.set h.index r.1 := rfl

theorem afterEvent_deviceAt {s : State} {h : Handle} {d : Device} (r : Device × Answer) (hd : s.deviceAt h = some d) :
    (afterEvent s h r).deviceAt h = some r.1 := by
  have := (List.getElem?_eq_some_iff.mp hd).1
  simp [deviceAt_eq, this]

/-- What is run does not depend on the inputs that stood in the state before. -/
theorem runInputs_facing (s : State) (l m : List Input) : runInputs (s.facing m) l = runInputs s l := rfl

theorem bytesRead_facing (s : State) (h : Handle) (l m : List Input) : bytesRead (s.facing m) h l = bytesRead s h l := rfl

theorem runInputs_event {s : State} {x : Input} {l : List Input} {h : Handle} {i : Instr} {d : Device}
    {e : Device → Device × Answer} (hx : x.event? = some (h, i)) (he : eventOn i = some e)
    (hd : s.deviceAt h = some d) : runInputs s (x :: l) = runInputs (afterEvent s h (e d)) l := by
  rw [runInputs_cons (step_facing_event hx he hd), ← runInputs_facing (afterEvent s h (e d)) l l]; rfl

/-- The bytes of the first answer come before the bytes of the others. -/
theorem bytesIn_cons (a : Answer) (l : List Answer) : bytesIn (a :: l) = bytesIn [a] ++ bytesIn l := by
  cases a <;> rfl

theorem bytesIn_append (l m : List Answer) : bytesIn (l ++ m) = bytesIn l ++ bytesIn m := by
  induction l with
  | nil => rfl
  | cons a l ih => rw [List.cons_append, bytesIn_cons, ih, bytesIn_cons a l, List.append_assoc]

theorem answersOf_append (h : Handle) (l m : List Response) : answersOf h (l ++ m) = answersOf h l ++ answersOf h m := by
  induction l with
  | nil => rfl
  | cons r l ih =>
    cases r with
    | ofInstance g a => by_cases hg : g = h <;> simp [answersOf, hg, ih]
    | created g => simpa [answersOf] using ih
    | register r => simpa [answersOf] using ih

/-- What an event adds to the bytes read: the bytes of its own answer. -/
theorem bytesRead_event {s : State} {x : Input} {l : List Input} {h : Handle} {i : Instr} {d : Device}
    {e : Device → Device × Answer} (hx : x.event? = some (h, i)) (he : eventOn i = some e)
    (hd : s.deviceAt h = some d) :
    bytesRead s h (x :: l) = bytesIn [(e d).2] ++ bytesRead (afterEvent s h (e d)) h l := by
  rw [bytesRead, responsesTo_cons (step_facing_event hx he hd), ← bytesRead_facing (afterEvent s h (e d)) h l l]
  simp only [Option.toList_some, List.singleton_append, answersOf, if_pos]
  exact bytesIn_cons _ _

/-- The input of a line of the notation presents the line's event. -/
theorem lineInput_event {l : ScriptLine} {i : Instr} (h : Handle) (hi : lineInstr l = some i) :
    (lineInput h l).event? = some (h, i) := by
  cases l with
  | connect r a =>
    obtain rfl := Option.some.inj hi
    simp [lineInput, lineWord, lineInstr, encode, inputOf, Input.event?, eventCycle, decodeEvent_connect]
  | rd =>
    obtain rfl := Option.some.inj hi
    simp [lineInput, lineWord, lineInstr, encode, inputOf, Input.event?, eventCycle, decodeEvent_read]
  | wr b =>
    obtain rfl := Option.some.inj hi
    simp [lineInput, lineWord, lineInstr, encode, inputOf, Input.event?, eventCycle, decodeEvent_write]
  | stop o =>
    obtain rfl := Option.some.inj hi
    simp [lineInput, lineWord, lineInstr, encode, inputOf, Input.event?, eventCycle, decodeEvent_disconnect]
  | reset => simp [lineInstr] at hi

end Sys2Proof.Machine
end

