-- ==== Sys2Proof/Tests/Slice0.lean ====
section
/-! SUPPORT. Tests of one step each, with the expected results of spec/95_test_vectors.md, and for every statement that
has hypotheses a state and operands that meet them all. -/

namespace Sys2Proof.Tests

open Sys2Proof.Machine

/-! ### Helpers -/

/-- One instance, in the given state, with nothing to come. -/
def one (p : Phase) (r : Register) : State := { State.reset with devices := [⟨p, r⟩] }

/-- Two instances at reset, and instance 1 selected. -/
def two : State := { State.resetWith 2 with context := ⟨1⟩ }

/-- The state a step leaves. -/
def next? : Result → Option State
  | .next s => some s
  | .fault _ => none
  | .refused _ => none

/-- The fault a step ends in. -/
def fault? : Result → Option Fault
  | .fault f => some f
  | .next _ => none
  | .refused _ => none

/-- The refusal a step ends in. -/
def refusal? : Result → Option Refusal
  | .refused r => some r
  | .next _ => none
  | .fault _ => none

/-- The instances and the response that a step leaves. -/
def seen (r : Result) : Option (List Device × Option Response) := (next? r).map fun t => (t.devices, t.response)

/-- Instance 0 in this state, after this answer. -/
def answered (p : Phase) (r : Register) (a : Answer) : Option (List Device × Option Response) :=
  some ([⟨p, r⟩], some (.ofInstance ⟨0⟩ a))

/-- An event for instance `h`, by its 10-bit word. -/
def ev (h : Nat) (w : EventWord) : Input := inputOf ⟨h⟩ (.event w)

/-! ### WellFormed refuses the ill-formed (the one check there is: the default row is not for the two selectors) -/

theorem test_wf_refuses_default_row_0x66 : (Instr.selUnrecognized 0x66#8).wf = false := by decide
theorem test_wf_refuses_default_row_0xC8 : (Instr.selUnrecognized 0xC8#8).wf = false := by decide
theorem test_wf_accepts_default_row_0x00 : (Instr.selUnrecognized 0x00#8).wf = true := by decide

/-! ### Words written out bit by bit (30_encoding.md R42 to R45, R47; opcode_table.json) -/

theorem test_word_connect_read : decodeEvent 0b0011100001#10 = .connect 0b1110000#7 true := by decide
theorem test_word_connect_write : decodeEvent 0b0011100000#10 = .connect 0b1110000#7 false := by decide
theorem test_word_read : decodeEvent 0b0100000000#10 = .read 0x00#8 := by decide
theorem test_word_write : decodeEvent 0b1001100110#10 = .write 0b01100110#8 := by decide
theorem test_word_disconnect : decodeEvent 0b1100000000#10 = .disconnect 0x00#8 := by decide
theorem test_word_sel_measurement : decodeSelectorRow 0b01100110#8 = .selMeasurement := by decide
theorem test_word_sel_product_id : decodeSelectorRow 0b11001000#8 = .selProductId := by decide
theorem test_word_sel_unrecognized : decodeSelectorRow 0b01100111#8 = .selUnrecognized 0x67#8 := by decide

/-- V1: the neighbours, complements, swaps and reversals of the selectors select nothing. -/
theorem test_selector_neighbours :
    ([0x00#8, 0xFF#8, 0x65#8, 0x67#8, 0xC7#8, 0xC9#8, 0x64#8, 0x62#8, 0x6E#8, 0x76#8, 0x46#8, 0x26#8, 0xE6#8, 0xCA#8,
      0xCC#8, 0xC0#8, 0xD8#8, 0xE8#8, 0x88#8, 0x48#8, 0x99#8, 0x37#8, 0x8C#8, 0x13#8, 0x70#8, 0xE0#8, 0xE1#8].all
        fun b => decodeSelector b = .unrecognized) = true := by decide

theorem test_decode_refuses_wide_event : decode 16 0x400 = .error (.bitsBeyondWord 0x400) := by rfl
theorem test_decode_refuses_wide_selector : decode 8 0x100 = .error (.bitsBeyondWord 0x100) := by rfl
theorem test_decode_refuses_width : decode 9 0 = .error (.noFormatOfWidth 9) := by rfl

/-! ### One step each -/

/-- V2 row 3. -/
theorem test_connect_read_restarts :
    seen (exec (.connect 0x70#7 true) (one .readByte4 .measurement)) = answered .readByte1 .measurement (.accepted true) := by
  decide

/-- V2 row 9: the address is not compared. -/
theorem test_connect_write_other_address :
    seen (exec (.connect 0x7F#7 false) (one .awaitingTransactionStart .productId))
      = answered .writeByte1 .productId (.accepted true) := by decide

/-- V3, R71: the last byte of Measurement. -/
theorem test_read_last_measurement_byte :
    seen (exec (.read 0x00#8) (one .readByte6 .measurement))
      = answered .awaitingTransactionStart .measurement (.byte 0x13#8) := by decide

/-- V3 and its last line: an operand that looks like a selector is ignored. -/
theorem test_read_second_product_byte :
    seen (exec (.read 0xC8#8) (one .readByte2 .productId)) = answered .readByte3 .productId (.byte 0x87#8) := by decide

/-- V4 row 4. -/
theorem test_write_second_byte_wins :
    seen (exec (.write 0x66#8) (one .writeByte2 .productId)) = answered .writeByte3 .measurement (.accepted true) := by
  decide

/-- V4 row 12: a WRITE in a read phase. -/
theorem test_write_in_read_phase :
    seen (exec (.write 0x12#8) (one .readByte6 .measurement))
      = answered .awaitingTransactionStart .unrecognized (.accepted true) := by decide

/-- V5 row 4: the operand is not decoded as a selector. -/
theorem test_disconnect_operand_ignored :
    seen (exec (.disconnect 0xC8#8) (one .writeByte3 .measurement)) = answered .writeByte3 .measurement .nothing := by
  decide

/-- S1 and R48. -/
theorem test_sel_measurement :
    seen (exec .selMeasurement (one .writeByte1 .productId))
      = some ([⟨.writeByte1, .productId⟩], some (.register .measurement)) := by decide

theorem test_sel_product_id :
    seen (exec .selProductId (one .writeByte1 .measurement))
      = some ([⟨.writeByte1, .measurement⟩], some (.register .productId)) := by decide

theorem test_sel_unrecognized :
    seen (exec (.selUnrecognized 0xFF#8) (one .writeByte1 .measurement))
      = some ([⟨.writeByte1, .measurement⟩], some (.register .unrecognized)) := by decide

/-- V6 row 1: the other instance keeps its state. -/
theorem test_two_instances :
    seen (step (two.facing [ev 1 0x0E0#10]))
      = some ([⟨.awaitingTransactionStart, .unrecognized⟩, ⟨.writeByte1, .unrecognized⟩],
          some (.ofInstance ⟨1⟩ (.accepted true))) := by decide

/-- V6 row 7 and S8: the handle is checked and recorded. -/
theorem test_unknown_handle : fault? (step (two.facing [ev 2 0x100#10])) = some (.hostIntegration ⟨2⟩) := by decide

/-- S8: no instance at all. -/
theorem test_empty_system : fault? (step ((State.resetWith 0).facing [ev 0 0x100#10])) = some (.hostIntegration ⟨0⟩) := by
  decide

/-- R58's worked example: the first two CREATEs of an empty system. -/
theorem test_create_first :
    seen (step ((State.resetWith 0).facing [.create])) = some ([Device.reset], some (.created ⟨0⟩)) := by decide

theorem test_create_second :
    seen (step ((State.resetWith 1).facing [.create])) = some ([Device.reset, Device.reset], some (.created ⟨1⟩)) := by
  decide

theorem test_create_after_event_refused :
    refusal? (step ({ State.reset with stage := .run }.facing [.create])) = some .createInRunStage := by decide

theorem test_overlap_refused :
    refusal? (step (State.reset.facing [.overlap idleCycle idleCycle])) = some .overlappingEvents := by decide

/-- V7 row 1. -/
theorem test_reset :
    seen (step ((one .readByte4 .measurement).facing [lineInput ⟨0⟩ .reset])) = some ([Device.reset], none) := by decide

/-- R93: an event in the same step as `rst` is dropped. -/
theorem test_reset_wins :
    seen (step ((one .readByte4 .measurement).facing
      [.cycle { eventCycle ⟨0⟩ 0b10#2 0xC8#8 with rst := true }])) = some ([Device.reset], none) := by decide

/-- The host's probe: a table word placed after reset is the next thing run. -/
theorem test_fetch_word_write :
    seen (step (State.reset.withFetchWord 16 0x2C8))
      = answered .awaitingTransactionStart .productId (.accepted true) := by decide

theorem test_fetch_word_selector :
    seen (step (State.reset.withFetchWord 8 0x66)) = some ([Device.reset], some (.register .measurement)) := by decide

/-- R28, V9: the 16-bit values a controller assembles. -/
theorem test_assembled_values :
    ((rom .productId 0, rom .productId 1), (rom .measurement 0, rom .measurement 1), (rom .measurement 3, rom .measurement 4))
      = ((some 0x08#8, some 0x87#8), (some 0x65#8, some 0xD5#8), (some 0x5D#8, some 0xD1#8)) := by decide

/-- R46: the port's outputs. -/
theorem test_port_outputs : (rspAck (.accepted true), rspData (.byte 0x87#8)) = (1#1, 0x87#8) := by decide

/-- R51: the text of a line and of a response. -/
theorem test_line_text :
    (scriptText (some ⟨1⟩) (.wr 0xC8#8), scriptText none (.connect true (some 0x44#7)), answerText (.byte 0x87#8))
      = ("h1: WR 0xC8", "CONNECT R @0x44", "-> 0x87") := by decide

/-! ### Every statement with hypotheses has a case that meets them -/

theorem witness_DecodeOfEncode : (Instr.selUnrecognized 0x67#8).wf = true := by decide

/-- ConnectCompletes, ReadCompletes, WriteCompletes, DisconnectChangesNothing, WriteStoresDecoderResult, PortOutputs, and
the second half of WriteCounter: the handle names an instance, here the last of two. -/
theorem witness_instance_selected : two.devices[two.context.index]? = some Device.reset := by decide

theorem witness_SelectorRowsComplete : (Instr.selUnrecognized 0xC9#8).wf = true := by decide

theorem witness_ConnectOverridesConnect : (next? (exec (.connect 0x70#7 true) two)).isSome = true := by decide

/-- OtherInstancesUnchanged: an event, and an instance other than the selected one. -/
theorem witness_OtherInstancesUnchanged :
    (next? (exec (.write 0x66#8) two)).isSome = true ∧ (⟨0⟩ : Handle) ≠ two.context := by decide

/-- ResponseOfEachInstruction, each constructor. -/
theorem witness_ResponseOfEachInstruction :
    ([Instr.connect 0#7 false, .read 0xFF#8, .write 0x00#8, .disconnect 0xFF#8, .selMeasurement, .selProductId,
      .selUnrecognized 0x00#8].all fun i => (next? (exec i two)).isSome) = true := by decide

/-- SelectionIsSticky: a READ, whose step is neither a reset nor a WRITE, in a state with a selection. -/
theorem witness_SelectionIsSticky :
    (next? (step ((one .readByte3 .productId).facing [ev 0 0x100#10]))).isSome = true ∧
      (ev 0 0x100#10).isReset = false ∧ (ev 0 0x100#10).event? = some (⟨0⟩, .read 0x00#8) ∧
      (one .readByte3 .productId).deviceAt ⟨0⟩ = some ⟨.readByte3, .productId⟩ := by decide

/-- DesynchronisedRead and ZeroByteMeansDesynchronised: an unreachable state of the default arm. -/
theorem witness_DesynchronisedRead :
    (one .readByte4 .productId).devices[(one .readByte4 .productId).context.index]? = some ⟨.readByte4, .productId⟩ ∧
      (⟨.readByte4, .productId⟩ : Device).readDesynchronised = true ∧
      (next? (exec (.read 0x00#8) (one .readByte4 .productId))).isSome = true := by decide

theorem witness_DesynchronisedWrite :
    (one .readByte6 .measurement).devices[(one .readByte6 .measurement).context.index]? = some ⟨.readByte6, .measurement⟩ ∧
      Phase.readByte6.writeDesynchronised = true := by decide

theorem witness_IdleReadsRepeat :
    (one .awaitingTransactionStart .measurement).deviceAt ⟨0⟩ = some ⟨.awaitingTransactionStart, .measurement⟩ := by decide

/-- StepRunsDecodedInstruction, its three clauses. -/
theorem witness_StepRunsDecodedInstruction :
    (two.facing [.cycle (eventCycle ⟨1⟩ 0b11#2 0xFF#8)]).inputs = [.cycle (eventCycle ⟨1⟩ 0b11#2 0xFF#8)] ∧
      (eventCycle ⟨1⟩ 0b11#2 0xFF#8).rst = false ∧ (eventCycle ⟨1⟩ 0b11#2 0xFF#8).evValid = true ∧
      (two.facing [.selector 0xC8#8]).inputs = [.selector 0xC8#8] ∧
      decodeTableWord 16 0x3FF = some (.disconnect 0xFF#8) ∧ decodeTableWord 8 0xFF = some (.selUnrecognized 0xFF#8) := by
  decide

/-- IdlePortChangesNothing, its two clauses. -/
theorem witness_IdlePortChangesNothing :
    (two.facing [.cycle idleCycle]).inputs = [.cycle idleCycle] ∧ idleCycle.rst = false ∧ idleCycle.evValid = false ∧
      two.inputs = [] := by decide

theorem witness_ResetPutsInitialState :
    (two.facing [.cycle resetCycle]).inputs = [.cycle resetCycle] ∧ resetCycle.rst = true := by decide

theorem witness_CreateAppendsInstance :
    (two.facing [.create]).inputs = [.create] ∧ (two.facing [.create]).stage = .initialisation := by decide

/-- UnknownHandleFaults, its two clauses, at the first handle that names nothing; and FaultOnlyFromUnknownHandle. -/
theorem witness_UnknownHandleFaults :
    isEvent (.read 0x00#8) = true ∧ { two with context := ⟨2⟩ }.devices.length ≤ 2 ∧
      (ev 2 0x100#10).event? = some (⟨2⟩, .read 0x00#8) ∧ two.devices.length ≤ 2 ∧
      fault? (step (two.facing [ev 2 0x100#10])) = some (.hostIntegration ⟨2⟩) := by decide

/-- RefusalsAreTheHostsBreaches, both cases, and RunStageIsForever in the run stage. -/
theorem witness_RunStageIsForever :
    (next? (step ({ two with stage := .run }.facing [ev 0 0x0E1#10]))).isSome = true := by decide

/-- EventOrResetBeginsRunStage: an event in the initialisation stage, and a CREATE there. -/
theorem witness_EventOrResetBeginsRunStage :
    two.stage = .initialisation ∧ (ev 0 0x300#10).event?.isSome = true ∧
      ((next? (step (two.facing [ev 0 0x300#10]))).map State.stage) = some .run ∧
      Input.create.event? = none ∧ Input.create.isReset = false ∧
      ((next? (step (two.facing [.create]))).map State.stage) = some .initialisation := by decide

theorem witness_StepKeepsInvariant :
    (one .readByte3 .productId).devices.all Device.isReachable = true ∧
      (next? (step ({ one .readByte3 .productId with stage := .run }.facing [ev 0 0x100#10]))).isSome = true := by decide

/-- The invariant of StepKeepsInvariant in a state of the run stage that is not the reset state. -/
theorem witness_invariant : { one .readByte3 .productId with stage := .run }.Inv :=
  ⟨by decide, fun h => nomatch h⟩

/-- StepKeepsNothingSelected: nothing selected, a WRITE of a neighbour of a selector, a step that completes. -/
theorem witness_StepKeepsNothingSelected :
    two.devices.all (fun d => d.sel = .unrecognized) = true ∧
      (ev 1 0x267#10).event? = some (⟨1⟩, .write 0x67#8) ∧ (0x67#8 : Byte) ≠ 0x66#8 ∧ (0x67#8 : Byte) ≠ 0xC8#8 ∧
      (next? (step (two.facing [ev 1 0x267#10]))).isSome = true := by decide

/-- ReachableExactly's hypothesis of its second clause: a run that completes. -/
theorem witness_ReachableExactly :
    ((next? (runInputs State.reset [ev 0 0x0E1#10])).bind fun t => t.deviceAt ⟨0⟩) = some ⟨.readByte1, .unrecognized⟩ := by
  decide

theorem witness_ProductIdCycle : (one .readByte1 .productId).deviceAt ⟨0⟩ = some ⟨.readByte1, .productId⟩ := by decide

theorem witness_MeasurementCycle : (one .readByte1 .measurement).deviceAt ⟨0⟩ = some ⟨.readByte1, .measurement⟩ := by decide

/-- StopKeepsPosition with Measurement selected; LastWrittenByteSelects and SelectThenFetch: any instance that exists. -/
theorem witness_instance_exists : (one .readByte5 .measurement).deviceAt ⟨0⟩ = some ⟨.readByte5, .measurement⟩ := by decide

theorem witness_NothingSelectedReadsZero :
    resetCycle.rst = true ∧ (ev 0 0x267#10).event? = some (⟨0⟩, .write 0x67#8) ∧ (0x67#8 : Byte) ≠ 0x66#8 ∧
      (0x67#8 : Byte) ≠ 0xC8#8 ∧ bytesRead two ⟨1⟩ [.cycle resetCycle, ev 1 0x0E1#10, ev 1 0x100#10] = [0x00#8] := by
  decide

theorem witness_DutifulHostIsServed :
    ([ev 1 0x0E1#10, .cycle resetCycle, .selector 0x66#8, .cycle idleCycle].all fun x => x.dutiful two.devices.length) = true := by
  decide

/-- InstanceIsolation: two systems that agree on instance 1 and differ on instance 0. -/
theorem witness_InstanceIsolation :
    ({ two with devices := [⟨.readByte1, .productId⟩, Device.reset] } : State).deviceAt ⟨1⟩ = two.deviceAt ⟨1⟩ ∧
      ({ two with devices := [⟨.readByte1, .productId⟩, Device.reset] } : State).devices.length = two.devices.length ∧
      ({ two with devices := [⟨.readByte1, .productId⟩, Device.reset] } : State).deviceAt ⟨0⟩ ≠ two.deviceAt ⟨0⟩ := by decide

theorem witness_EventsForInstancesCommute :
    (ev 0 0x0E1#10).event? = some (⟨0⟩, .connect 0x70#7 true) ∧ (ev 1 0x2C8#10).event? = some (⟨1⟩, .write 0xC8#8) ∧
      (⟨0⟩ : Handle) ≠ ⟨1⟩ ∧ 0 < two.devices.length ∧ 1 < two.devices.length := by decide

end Sys2Proof.Tests
end

