-- ==== Sys2Proof/Proofs/StateCodes.lean ====
section
/-! The bit-level views of a device (rules R14, R15): each reader of codes is the partial inverse of its encoding. -/

namespace Sys2Proof.Machine

/-! ### `phase[3:0]` -/

/-- Rule R14: no phase is lost in its code. -/
@[simp] theorem phaseOfCode_phaseCode (p : Phase) : phaseOfCode (phaseCode p) = some p := by
  cases p <;> rfl

/-- Rule R14: a code is read as a phase only in the arm that tests for that phase's code. -/
theorem phaseCode_of_phaseOfCode_eq_some {c : BitVec 4} {p : Phase} (h : phaseOfCode c = some p) :
    phaseCode p = c := by
  unfold phaseOfCode at h
  split_ifs at h <;> cases h <;> subst c <;> rfl

theorem phaseOfCode_eq_some_iff (c : BitVec 4) (p : Phase) : phaseOfCode c = some p ↔ phaseCode p = c := by
  constructor
  · exact phaseCode_of_phaseOfCode_eq_some
  · rintro rfl
    exact phaseOfCode_phaseCode p

/-! ### `sel[1:0]` -/

/-- Rule R15: no register is lost in its code. -/
@[simp] theorem registerOfCode_registerCode (r : Register) : registerOfCode (registerCode r) = some r := by
  cases r <;> rfl

/-- Rule R15: a code is read as a register only in the arm that tests for that register's code. -/
theorem registerCode_of_registerOfCode_eq_some {c : BitVec 2} {r : Register} (h : registerOfCode c = some r) :
    registerCode r = c := by
  unfold registerOfCode at h
  split_ifs at h <;> cases h <;> subst c <;> rfl

theorem registerOfCode_eq_some_iff (c : BitVec 2) (r : Register) :
    registerOfCode c = some r ↔ registerCode r = c := by
  constructor
  · exact registerCode_of_registerOfCode_eq_some
  · rintro rfl
    exact registerOfCode_registerCode r

/-! ### The obligation -/

/-- Settles O8: the two tables and the codes that name nothing are evaluated; the rest is that each reader of codes
inverts its encoding. -/
theorem stateCodes : Obligations.StateCodes := by
  unfold Obligations.StateCodes
  refine ⟨?phaseTable, phaseOfCode_eq_some_iff, ?noPhase, ?registerTable, registerOfCode_eq_some_iff, ?noRegister⟩
  case phaseTable => rfl
  case noPhase => decide
  case registerTable => rfl
  case noRegister => rfl

end Sys2Proof.Machine
end

