-- ==== Sys2Proof/Proofs/RomContents.lean ====
section
/-! The response ROM (rules R24, R25): where it has a byte is a fact about the length of each register's table. -/

namespace Sys2Proof.Machine

/-- The ROM has a byte at exactly the positions of the register's response table. -/
@[simp] theorem rom_isSome_iff (reg : Register) (idx : Nat) :
    (rom reg idx).isSome = true ↔ idx < (responseTable reg).length := by
  rw [rom, isSome_getElem?]

/-! ### The response lengths (rules R3, R24) -/

@[simp] theorem length_responseTable_productId : (responseTable .productId).length = 3 := rfl

@[simp] theorem length_responseTable_measurement : (responseTable .measurement).length = 6 := rfl

@[simp] theorem length_responseTable_unrecognized : (responseTable .unrecognized).length = 0 := rfl

/-- Rule R24: the ROM has a byte at three addresses of Product ID, at six of Measurement, and nowhere else. -/
theorem rom_isSome_iff_address (reg : Register) (idx : Nat) :
    (rom reg idx).isSome = true ↔ (reg = .productId ∧ idx < 3) ∨ (reg = .measurement ∧ idx < 6) := by
  rw [rom_isSome_iff]
  cases reg with
  | productId => simp
  | measurement => simp
  | unrecognized => simp

/-! ### The obligation -/

/-- Settles O11: the nine bytes are looked up; the ROM's extent follows from the three response lengths. -/
theorem romContents : Obligations.RomContents := by
  unfold Obligations.RomContents
  refine ⟨?productId, ?measurement, rom_isSome_iff_address⟩
  case productId => decide
  case measurement => decide

end Sys2Proof.Machine
end

