-- ==== Sys2Proof/Proofs/EventWords.lean ====
section
/-! Event words by their fields (rules R42, R43): the kind is the range a word lies in, and an event word decodes to
an instruction exactly when it is that instruction's word. -/

namespace Sys2Proof

/-! ### Words as numbers -/

/-- Rule R42: the number of a word is its kind in steps of 0x100, plus its operand. -/
theorem ofNat_eq_eventWord (k : BitVec 2) (o : Byte) : BitVec.ofNat 10 (k.toNat * 256 + o.toNat) = eventWord k o := by
  rw [← eventWord_toNat, BitVec.ofNat_toNat, BitVec.setWidth_eq]

/-- Rule R43: each kind is one block of 256 words. -/
theorem eventKind_eq_iff_range (w : EventWord) (k : BitVec 2) :
    eventKind w = k ↔ k.toNat * 256 ≤ w.toNat ∧ w.toNat ≤ k.toNat * 256 + 0xFF := by
  rw [← BitVec.toNat_inj, eventKind_toNat]
  omega

/-! ### Words by their operands -/

theorem exists_eventWord_eq_iff (k : BitVec 2) (w : EventWord) : (∃ o, eventWord k o = w) ↔ eventKind w = k := by
  constructor
  · rintro ⟨o, rfl⟩
    exact eventKind_eventWord k o
  · rintro rfl
    exact ⟨eventOperand w, eventWord_fields w⟩

/-- Every operand byte is the operand of a CONNECT (rule R44), so a CONNECT's kind alone makes a word a CONNECT. -/
theorem exists_connectWord_eq_iff (w : EventWord) :
    (∃ a r, eventWord 0b00#2 (connectOperand a r) = w) ↔ eventKind w = 0b00#2 := by
  rw [← exists_eventWord_eq_iff]
  constructor
  · rintro ⟨a, r, h⟩
    exact ⟨connectOperand a r, h⟩
  · rintro ⟨o, h⟩
    exact ⟨operandAddress o, operandIsRead o, by rwa [connectOperand_fields]⟩

/-! ### The decoder against the encoder -/

/-- The last kind is the only one left when the other three are excluded. -/
theorem eq_disconnectKind {k : BitVec 2} (h0 : k ≠ 0b00#2) (h1 : k ≠ 0b01#2) (h2 : k ≠ 0b10#2) : k = 0b11#2 := by
  revert k
  decide

/-- No bit of an event word is lost in its instruction (rules R43 to R45). -/
@[simp] theorem encode_decodeEvent (w : EventWord) : encode (decodeEvent w) = .event w := by
  unfold decodeEvent
  split_ifs with h0 h1 h2
  · rw [encode, connectOperand_fields, ← h0, eventWord_fields]
  · rw [encode, ← h1, eventWord_fields]
  · rw [encode, ← h2, eventWord_fields]
  · rw [encode, ← eq_disconnectKind h0 h1 h2, eventWord_fields]

theorem decodeEvent_eq_iff {w : EventWord} {i : Instr} : decodeEvent w = i ↔ encode i = .event w := by
  constructor
  · rintro rfl
    exact encode_decodeEvent w
  · intro h
    cases i with
    | connect a r => cases h; exact decodeEvent_connect a r
    | read o => cases h; exact decodeEvent_read o
    | write b => cases h; exact decodeEvent_write b
    | disconnect b => cases h; exact decodeEvent_disconnect b
    | selMeasurement => cases h
    | selProductId => cases h
    | selUnrecognized b => cases h

/-! ### The event a word selects (rule R43) -/

theorem decodeEvent_isConnect_iff (w : EventWord) :
    (∃ a r, decodeEvent w = .connect a r) ↔ eventKind w = 0b00#2 := by
  simp only [decodeEvent_eq_iff, encode, CodeWord.event.injEq, exists_connectWord_eq_iff]

theorem decodeEvent_isRead_iff (w : EventWord) : (∃ o, decodeEvent w = .read o) ↔ eventKind w = 0b01#2 := by
  simp only [decodeEvent_eq_iff, encode, CodeWord.event.injEq, exists_eventWord_eq_iff]

theorem decodeEvent_isWrite_iff (w : EventWord) : (∃ b, decodeEvent w = .write b) ↔ eventKind w = 0b10#2 := by
  simp only [decodeEvent_eq_iff, encode, CodeWord.event.injEq, exists_eventWord_eq_iff]

theorem decodeEvent_isDisconnect_iff (w : EventWord) :
    (∃ b, decodeEvent w = .disconnect b) ↔ eventKind w = 0b11#2 := by
  simp only [decodeEvent_eq_iff, encode, CodeWord.event.injEq, exists_eventWord_eq_iff]

end Sys2Proof

namespace Sys2Proof.Machine

/-! ### The obligation -/

/-- Settles O4: the ranges are the four blocks of `eventKind_eq_iff_range`, and each event's words are those of its
kind. -/
theorem kindFieldSelectsEvent : Obligations.KindFieldSelectsEvent := by
  unfold Obligations.KindFieldSelectsEvent
  intro w
  refine ⟨?lowestBlock, eventKind_eq_iff_range w 0b01#2, eventKind_eq_iff_range w 0b10#2,
    eventKind_eq_iff_range w 0b11#2, decodeEvent_isConnect_iff w, decodeEvent_isRead_iff w,
    decodeEvent_isWrite_iff w, decodeEvent_isDisconnect_iff w⟩
  case lowestBlock => simpa using eventKind_eq_iff_range w 0b00#2

end Sys2Proof.Machine
end

