-- ==== Sys2Proof/Proofs/EventOperands.lean ====
section
/-! The operand of each event word (rules R44, R45): what it carries for CONNECT and WRITE, and that READ and
DISCONNECT do not look at theirs. -/

namespace Sys2Proof

/-! ### Words of each kind, given as numbers -/

theorem decodeEvent_ofNat_connect (a : Address) (r : Bool) :
    decodeEvent (BitVec.ofNat 10 (2 * a.toNat + r.toNat)) = .connect a r := by
  have word := ofNat_eq_eventWord 0b00#2 (connectOperand a r)
  rw [connectOperand_toNat, BitVec.toNat_zero, Nat.zero_mul, Nat.zero_add] at word
  rw [word, decodeEvent_connect]

theorem decodeEvent_ofNat_read (o : Byte) : decodeEvent (BitVec.ofNat 10 (0x100 + o.toNat)) = .read o :=
  (congrArg decodeEvent (ofNat_eq_eventWord 0b01#2 o)).trans (decodeEvent_read o)

theorem decodeEvent_ofNat_write (b : Byte) : decodeEvent (BitVec.ofNat 10 (0x200 + b.toNat)) = .write b :=
  (congrArg decodeEvent (ofNat_eq_eventWord 0b10#2 b)).trans (decodeEvent_write b)

theorem decodeEvent_ofNat_disconnect (b : Byte) :
    decodeEvent (BitVec.ofNat 10 (0x300 + b.toNat)) = .disconnect b :=
  (congrArg decodeEvent (ofNat_eq_eventWord 0b11#2 b)).trans (decodeEvent_disconnect b)

/-- Rule R45: the canonical word of READ. -/
theorem decodeEvent_canonicalRead : decodeEvent 0x100#10 = .read 0x00#8 := decodeEvent_ofNat_read 0x00#8

/-- Rule R45: the canonical word of DISCONNECT. -/
theorem decodeEvent_canonicalDisconnect : decodeEvent 0x300#10 = .disconnect 0x00#8 :=
  decodeEvent_ofNat_disconnect 0x00#8

end Sys2Proof

namespace Sys2Proof.Machine

/-! ### Operands that nothing looks at -/

/-- Two events that do the same to a device act alike in every state. -/
theorem exec_eq_of_eventOn_eq {i j : Instr} {e : Device → Device × Answer} (hi : eventOn i = some e)
    (hj : eventOn j = some e) (s : State) : exec i s = exec j s := by
  rw [exec_of_eventOn hi, exec_of_eventOn hj]

/-- Rule R45: what READ does to a device is the same for all operands. -/
theorem exec_read_operand_ignored (o o' : Byte) (s : State) : exec (.read o) s = exec (.read o') s :=
  exec_eq_of_eventOn_eq (e := readDevice) rfl rfl s

/-- Rule R45: what DISCONNECT does to a device is the same for all operands. -/
theorem exec_disconnect_operand_ignored (b b' : Byte) (s : State) :
    exec (.disconnect b) s = exec (.disconnect b') s :=
  exec_eq_of_eventOn_eq (e := disconnectDevice) rfl rfl s

/-! ### The obligations -/

/-- Settles O5: the number `2 * address + direction` is a CONNECT's word, and the two words of the device's own
address are evaluated. -/
theorem connectOperandLayout : Obligations.ConnectOperandLayout := by
  unfold Obligations.ConnectOperandLayout
  refine ⟨decodeEvent_ofNat_connect, ?ownAddressRead, ?ownAddressWrite⟩
  case ownAddressRead => decide
  case ownAddressWrite => decide

/-- Settles O6: every number is decoded to its event, and neither READ nor DISCONNECT uses the operand it then
carries. -/
theorem writeByteAndIgnoredOperands : Obligations.WriteByteAndIgnoredOperands := by
  unfold Obligations.WriteByteAndIgnoredOperands
  rw [decodeEvent_canonicalRead, decodeEvent_canonicalDisconnect]
  refine ⟨decodeEvent_ofNat_write, ?readOperand, ?disconnectOperand, fun _ => rfl, fun _ => rfl⟩
  case readOperand =>
    intro o s
    rw [decodeEvent_ofNat_read, exec_read_operand_ignored]
  case disconnectOperand =>
    intro b s
    rw [decodeEvent_ofNat_disconnect, exec_disconnect_operand_ignored]

end Sys2Proof.Machine
end

