-- ==== Sys2Proof/Proofs/SelectorMap.lean ====
section
/-! The register-address decoder (rule R47): which bytes name which register. -/

namespace Sys2Proof

@[simp] theorem decodeSelector_eq_measurement_iff (b : Byte) : decodeSelector b = .measurement ↔ b = 0x66#8 := by
  unfold decodeSelector
  split_ifs with hm hp
  · exact iff_of_true rfl hm
  · exact iff_of_false nofun hm
  · exact iff_of_false nofun hm

/-- The second compare is reached by 0xC8, for it is not the byte of the first. -/
@[simp] theorem decodeSelector_eq_productId_iff (b : Byte) : decodeSelector b = .productId ↔ b = 0xC8#8 := by
  unfold decodeSelector
  split_ifs with hm hp
  · exact iff_of_false nofun (hm ▸ by decide)
  · exact iff_of_true rfl hp
  · exact iff_of_false nofun hp

/-- What is left when neither compare matches. -/
@[simp] theorem decodeSelector_eq_unrecognized_iff (b : Byte) :
    decodeSelector b = .unrecognized ↔ b ≠ 0x66#8 ∧ b ≠ 0xC8#8 := by
  rw [ne_eq, ne_eq, ← decodeSelector_eq_measurement_iff, ← decodeSelector_eq_productId_iff]
  cases decodeSelector b with
  | productId => simp
  | measurement => simp
  | unrecognized => simp

end Sys2Proof

namespace Sys2Proof.Machine

/-! ### The obligation -/

/-- Settles O10: one equivalence per register, and the six neighbours of the two selectors evaluated. -/
theorem selectorMap : Obligations.SelectorMap := by
  unfold Obligations.SelectorMap
  refine ⟨decodeSelector_eq_measurement_iff, decodeSelector_eq_productId_iff, decodeSelector_eq_unrecognized_iff,
    ?neighbours⟩
  case neighbours => decide

end Sys2Proof.Machine
end

