-- ==== Sys2Proof/Proofs/UnknownHandle.lean ====
section
/-! The host-integration fault (rules R61, R89): instance selection comes first in every event, so an event whose
handle names no instance stops there. -/

namespace Sys2Proof.Machine

/-- Rule R61: all four events go through instance selection, which finds no instance at or above their number. -/
theorem exec_of_unknownHandle {i : Instr} {s : State} (hi : isEvent i = true)
    (hs : s.devices.length ≤ s.context.index) : exec i s = .fault (.hostIntegration s.context) := by
  obtain ⟨e, he⟩ := eventOn_of_isEvent hi
  rw [exec_of_eventOn he, onInstance_of_none e (List.getElem?_eq_none hs)]

/-- The step sets the context to the port's handle before it runs the event, so the fault records that handle. -/
theorem step_of_unknownHandle {s : State} {x : Input} {rest : List Input} {h : Handle} {i : Instr}
    (hs : s.inputs = x :: rest) (hx : x.event? = some (h, i)) (hh : s.devices.length ≤ h.index) :
    step s = .fault (.hostIntegration h) := by
  rw [step_event hs hx]
  exact exec_of_unknownHandle (isEvent_of_event? hx) hh

/-- Rule R89: the cause code of the fault. -/
@[simp] theorem causeCode_hostIntegration (h : Handle) : causeCode (.fault (.hostIntegration h)) = some 1 := rfl

/-! ### The obligation -/

/-- Settles O35: `exec` faults in instance selection, the step faults through `exec`, and the fault has code 1. -/
theorem unknownHandleFaults : Obligations.UnknownHandleFaults := by
  unfold Obligations.UnknownHandleFaults
  refine ⟨fun _ _ => exec_of_unknownHandle, ?inStep⟩
  case inStep =>
    intro s x rest h i hs hx hh
    have faults : step s = .fault (.hostIntegration h) := step_of_unknownHandle hs hx hh
    exact ⟨faults, by rw [faults, causeCode_hostIntegration]⟩

end Sys2Proof.Machine
end

