-- ==== Sys2Proof/Proofs/ConnectEvent.lean ====
section
/-! CONNECT (rules R64, R65): what it does to the instance the handle names, and that its address plays no part in it. -/

namespace Sys2Proof.Machine

/-! ### An event for an instance that exists -/

/-- Rule R60: an event whose handle names an instance completes, with that instance and the response new. -/
theorem exec_of_eventOn_of_some {i : Instr} {e : Device → Device × Answer} {s : State} {d : Device}
    (hi : eventOn i = some e) (hd : s.devices[s.context.index]? = some d) :
    exec i s = .next { s with
      devices := s.devices.set s.context.index (e d).1
      response := some (.ofInstance s.context (e d).2) } := by
  rw [exec_of_eventOn hi, onInstance_of_some e hd]

/-! ### CONNECT -/

/-- Rule R64: the direction alone gives the phase, and the selection stands. -/
theorem exec_connect_of_some {s : State} {d : Device} (a : Address) (r : Bool)
    (hd : s.devices[s.context.index]? = some d) :
    exec (.connect a r) s = .next { s with
      devices := s.devices.set s.context.index ⟨if r then .readByte1 else .writeByte1, d.sel⟩
      response := some (.ofInstance s.context (.accepted true)) } :=
  exec_of_eventOn_of_some (e := connectDevice r) rfl hd

/-- Rule R65: two CONNECTs of one direction do the same to an instance, whatever their addresses. -/
theorem exec_connect_address_ignored (a a' : Address) (r : Bool) (s : State) :
    exec (.connect a r) s = exec (.connect a' r) s :=
  exec_eq_of_eventOn_eq (e := connectDevice r) rfl rfl s

/-! ### The obligations -/

/-- Settles O13: the event completes on the instance found; its word is CONNECT's word, written out as its fields. -/
theorem connectCompletes : Obligations.ConnectCompletes := by
  unfold Obligations.ConnectCompletes
  intro s d a r hd
  refine ⟨exec_connect_of_some a r hd, ?encoded, ?decoded⟩
  case encoded => rfl
  case decoded => exact decodeEvent_connect a r

/-- Settles O14: neither address reaches instance selection. -/
theorem connectAddressUnread : Obligations.ConnectAddressUnread := by
  unfold Obligations.ConnectAddressUnread
  intro s a a' r
  exact exec_connect_address_ignored a a' r s

end Sys2Proof.Machine
end

