-- ==== Sys2Proof/Proofs/ReadEvent.lean ====
section
/-! READ (rules R68, R69, R72): the response multiplexer's 30 rows, the 21 of them in the default arm, and READ on
the instance the handle names. -/

namespace Sys2Proof.Machine

/-! ### The default arm of the multiplexer (rule R72) -/

/-- No byte in the ROM for the pair: the default arm. -/
theorem respMux_of_no_romByte {sel : Register} {phase : Phase} (h : (readIndex phase).bind (rom sel) = none) :
    respMux sel phase = (sentinel, .awaitingTransactionStart) := by
  obtain ⟨idx, b, hi, hb, -⟩ | hdefault := respMux_cases sel phase
  · simp [hi, hb] at h
  · exact hdefault

/-- Rule R24: with nothing selected the ROM is empty. -/
@[simp] theorem rom_unrecognized (idx : Nat) : rom .unrecognized idx = none := rfl

/-- Rule R72: the desynchronised states are those for which the ROM has no byte. -/
theorem readDesynchronised_iff_no_romByte (d : Device) :
    d.readDesynchronised = true ↔ (readIndex d.phase).bind (rom d.sel) = none := by
  obtain ⟨phase, sel⟩ := d
  cases sel with
  | unrecognized => exact iff_of_true (by cases phase <;> rfl) (by simp)
  | productId => cases phase <;> decide
  | measurement => cases phase <;> decide

theorem respMux_of_readDesynchronised {d : Device} (h : d.readDesynchronised = true) :
    respMux d.sel d.phase = (sentinel, .awaitingTransactionStart) :=
  respMux_of_no_romByte ((readDesynchronised_iff_no_romByte d).mp h)

/-! ### The 30 states of an instance -/

/-- The ten phases of rule R11. -/
def allPhases : List Phase :=
  [.awaitingTransactionStart, .readByte1, .readByte2, .readByte3, .readByte4, .readByte5, .readByte6,
    .writeByte1, .writeByte2, .writeByte3]

theorem mem_allPhases (p : Phase) : p ∈ allPhases := by
  cases p <;> decide

/-- The three selections of rule R12. -/
def allRegisters : List Register := [.productId, .measurement, .unrecognized]

theorem mem_allRegisters (r : Register) : r ∈ allRegisters := by
  cases r <;> decide

/-- The 30 states of an instance: every phase with every selection. -/
def allDevices : List Device := allRegisters.flatMap fun r => allPhases.map fun p => ⟨p, r⟩

theorem mem_allDevices (d : Device) : d ∈ allDevices :=
  List.mem_flatMap.mpr ⟨d.sel, mem_allRegisters d.sel, List.mem_map_of_mem (mem_allPhases d.phase)⟩

/-- The states in which a READ is desynchronised (rule R72). -/
def desynchronisedDevices : List Device := allDevices.filter Device.readDesynchronised

theorem mem_desynchronisedDevices_iff (d : Device) :
    d ∈ desynchronisedDevices ↔ d.readDesynchronised = true := by
  simp [desynchronisedDevices, mem_allDevices]

/-! ### READ -/

/-- Rule R68: the multiplexer gives the byte and the phase, and the selection stands. -/
theorem exec_read_of_some {s : State} {d : Device} (o : Byte) (hd : s.devices[s.context.index]? = some d) :
    exec (.read o) s = .next { s with
      devices := s.devices.set s.context.index ⟨(respMux d.sel d.phase).2, d.sel⟩
      response := some (.ofInstance s.context (.byte (respMux d.sel d.phase).1)) } :=
  exec_of_eventOn_of_some (e := readDevice) rfl hd

/-! ### The obligations -/

/-- Settles O12: the rows of the two registers with a response are evaluated; with nothing selected the ROM has no byte
for any phase. -/
theorem responseMuxTable : Obligations.ResponseMuxTable := by
  unfold Obligations.ResponseMuxTable
  refine ⟨?productId, ?measurement, ?unrecognized⟩
  case productId => rfl
  case measurement => rfl
  case unrecognized => exact fun p => respMux_of_no_romByte (by simp)

/-- Settles O16: the event completes on the instance found, and its words are READ's. -/
theorem readCompletes : Obligations.ReadCompletes := by
  unfold Obligations.ReadCompletes
  intro s d o hd
  refine ⟨exec_read_of_some o hd, ?decoded, ?encoded⟩
  case decoded => exact decodeEvent_read o
  case encoded => rfl

/-- Settles O26: READ takes the multiplexer's default arm; the 21 states are counted among the 30. -/
theorem desynchronisedRead : Obligations.DesynchronisedRead := by
  unfold Obligations.DesynchronisedRead
  refine ⟨?defaultArm, desynchronisedDevices, ?distinct, ?count, mem_desynchronisedDevices_iff⟩
  case defaultArm =>
    intro s d o hd hdesync
    rw [exec_read_of_some o hd, respMux_of_readDesynchronised hdesync, sentinel]
  case distinct => decide
  case count => rfl

end Sys2Proof.Machine
end

