-- ==== Sys2Proof/Proofs/ReadCycles.lean ====
section
/-! Whole responses (rules R70, R71): what a sequence of events returns from one instance is a matter of that instance's
state alone, and READs from any position of a response return the rest of it. -/

namespace Sys2Proof.Machine

/-! ### Sequences of events for one instance -/

/-- Wherever a handle names an instance in state `d`, presenting it these lines returns these bytes and leaves it in
state `d'`. -/
def Yields (d : Device) (lines : List ScriptLine) (bytes : List Byte) (d' : Device) : Prop :=
  ∀ (s : State) (h : Handle), s.deviceAt h = some d →
    bytesRead s h (scriptInputs h lines) = bytes ∧
    ∃ t, runInputs s (scriptInputs h lines) = .next t ∧ t.deviceAt h = some d'

theorem yields_nil (d : Device) : Yields d [] [] d :=
  fun s _ hd => ⟨rfl, s.facing [], rfl, hd⟩

/-- The line of an event, and then the other lines. -/
theorem yields_cons {l : ScriptLine} {i : Instr} {e : Device → Device × Answer} {d d' : Device}
    {lines : List ScriptLine} {bytes : List Byte} (hl : lineInstr l = some i) (he : eventOn i = some e)
    (hrest : Yields (e d).1 lines bytes d') : Yields d (l :: lines) (bytesIn [(e d).2] ++ bytes) d' := by
  intro s h hd
  have hx : (lineInput h l).event? = some (h, i) := lineInput_event h hl
  obtain ⟨hbytes, t, hrun, ht⟩ := hrest (afterEvent s h (e d)) h (afterEvent_deviceAt _ hd)
  refine ⟨?read, t, ?run, ht⟩
  case read => exact (bytesRead_event hx he hd).trans (congrArg _ hbytes)
  case run => exact (runInputs_event hx he hd).trans hrun

/-- Rule R68 in a sequence: READ adds the multiplexer's byte and goes on from the multiplexer's phase. -/
theorem yields_rd {reg : Register} {p p' : Phase} {b : Byte} {lines : List ScriptLine} {bytes : List Byte} {d' : Device}
    (hmux : respMux reg p = (b, p')) (hrest : Yields ⟨p', reg⟩ lines bytes d') :
    Yields ⟨p, reg⟩ (.rd :: lines) (b :: bytes) d' := by
  have hread : readDevice ⟨p, reg⟩ = (⟨p', reg⟩, .byte b) := by rw [readDevice, hmux]
  have hyields : Yields ⟨p, reg⟩ (.rd :: lines) (bytesIn [(readDevice ⟨p, reg⟩).2] ++ bytes) d' :=
    yields_cons rfl (i := .read 0x00#8) rfl (by rwa [hread])
  rwa [hread] at hyields

/-! ### The position inside a response -/

/-- No response has more bytes than there are read phases. -/
theorem length_responseTable_le (reg : Register) : (responseTable reg).length ≤ 6 := by
  cases reg <;> decide

/-- The phase of a position asks for the byte of that position. -/
theorem readIndex_readPhase {idx : Nat} (h : idx < 6) : readIndex (readPhase idx) = some idx := by
  revert idx
  decide

/-- A READ at a position of the response. -/
theorem respMux_readPhase {reg : Register} {idx : Nat} {b : Byte} (hb : (responseTable reg)[idx]? = some b) :
    respMux reg (readPhase idx) = (b, readNext reg idx) := by
  have hlt : idx < (responseTable reg).length := (List.getElem?_eq_some_iff.mp hb).1
  exact respMux_of_rom (readIndex_readPhase (hlt.trans_le (length_responseTable_le reg))) hb

/-! ### The rest of a response -/

/-- After `read` has been read of a response, one READ for each byte still to come returns those bytes and leaves
the instance idle with its selection. -/
theorem yields_rest_of_response {reg : Register} {read rest : List Byte} {b : Byte}
    (h : responseTable reg = read ++ b :: rest) :
    Yields ⟨readPhase read.length, reg⟩ (List.replicate (b :: rest).length .rd) (b :: rest)
      ⟨.awaitingTransactionStart, reg⟩ := by
  have hmux : respMux reg (readPhase read.length) = (b, readNext reg read.length) :=
    respMux_readPhase (by simp [h])
  induction rest generalizing read b with
  | nil =>
    have hlast : readNext reg read.length = .awaitingTransactionStart := by simp [readNext, h]
    rw [hlast] at hmux
    exact yields_rd hmux (yields_nil _)
  | cons b' rest ih =>
    have hnext : readNext reg read.length = readPhase (read ++ [b]).length := by simp [readNext, h]
    have hrest : responseTable reg = (read ++ [b]) ++ b' :: rest := by simp [h]
    rw [hnext] at hmux
    exact yields_rd hmux (ih hrest (respMux_readPhase (by simp [hrest])))

/-- Rules R70, R71: one READ for each byte of the response, from its first position. -/
theorem yields_response {reg : Register} (h : responseTable reg ≠ []) :
    Yields ⟨.readByte1, reg⟩ (List.replicate (responseTable reg).length .rd) (responseTable reg)
      ⟨.awaitingTransactionStart, reg⟩ := by
  obtain ⟨b, bytes, hb⟩ := List.exists_cons_of_ne_nil h
  rw [hb]
  exact yields_rest_of_response (read := []) hb

/-! ### The obligations -/

/-- Settles O44: Product ID's response from its first position. -/
theorem productIdCycle : Obligations.ProductIdCycle := by
  unfold Obligations.ProductIdCycle
  exact yields_response (reg := .productId) nofun

/-- Settles O45: Measurement's response from its first position. -/
theorem measurementCycle : Obligations.MeasurementCycle := by
  unfold Obligations.MeasurementCycle
  exact yields_response (reg := .measurement) nofun

end Sys2Proof.Machine
end

