-- ==== Sys2Proof/Proofs/WriteEvent.lean ====
section
/-! WRITE (rule R76): the decoded byte and the write counter's step on the instance the handle names. -/

namespace Sys2Proof.Machine

/-- Rule R76: the byte alone gives the selection, and the old phase alone gives the new one. -/
theorem exec_write_of_some {s : State} {d : Device} (b : Byte) (hd : s.devices[s.context.index]? = some d) :
    exec (.write b) s = .next { s with
      devices := s.devices.set s.context.index ⟨writeNext d.phase, decodeSelector b⟩
      response := some (.ofInstance s.context (.accepted true)) } :=
  exec_of_eventOn_of_some (e := writeDevice b) rfl hd

/-! ### The obligation -/

/-- Settles O17: the event completes on the instance found; its word is WRITE's word, written out as its fields. -/
theorem writeCompletes : Obligations.WriteCompletes := by
  unfold Obligations.WriteCompletes
  intro s d b hd
  refine ⟨exec_write_of_some b hd, ?decoded, ?encoded⟩
  case decoded => exact decodeEvent_write b
  case encoded => rfl

end Sys2Proof.Machine
end


-- ==== Sys2Proof/Proofs/DisconnectEvent.lean ====
section
/-! DISCONNECT (rule R81): putting an instance back unchanged leaves the whole list of instances as it was. -/

namespace Sys2Proof.Machine

/-- The frame of an event that does not change the instance it acts on. -/
theorem set_eq_of_getElem?_eq_some {l : List Device} {n : Nat} {d : Device} (h : l[n]? = some d) :
    l.set n d = l := by
  obtain ⟨hn, rfl⟩ := List.getElem?_eq_some_iff.mp h
  exact List.set_getElem_self hn

/-- Rule R81: only the response is new, and it holds nothing. -/
theorem exec_disconnect_of_some {s : State} {d : Device} (b : Byte) (hd : s.devices[s.context.index]? = some d) :
    exec (.disconnect b) s = .next { s with response := some (.ofInstance s.context .nothing) } := by
  rw [exec_of_eventOn_of_some (e := disconnectDevice) rfl hd, disconnectDevice, set_eq_of_getElem?_eq_some hd]

/-! ### The obligation -/

/-- Settles O18: the event completes on the instance found, which it leaves as it was; its words are DISCONNECT's. -/
theorem disconnectChangesNothing : Obligations.DisconnectChangesNothing := by
  unfold Obligations.DisconnectChangesNothing
  intro s d b hd
  refine ⟨exec_disconnect_of_some b hd, ?decoded, ?encoded⟩
  case decoded => exact decodeEvent_disconnect b
  case encoded => rfl

end Sys2Proof.Machine
end

