-- ==== Sys2Proof/Proofs/StickySelection.lean ====
section
/-! The sticky selection (rule R112): of the events WRITE alone stores a selection, and no other input but a reset
touches one. -/

namespace Sys2Proof.Machine

/-- Every instance of `s` stands in `t` with the same selection. -/
def KeepsSelections (s t : State) : Prop :=
  ∀ (h : Handle) (d : Device), s.deviceAt h = some d → ∃ d', t.deviceAt h = some d' ∧ d'.sel = d.sel

theorem KeepsSelections.refl (s : State) : KeepsSelections s s := fun _ d hd => ⟨d, hd, rfl⟩

/-- Only the instances of the first state matter, so taking an input from the port first makes no difference. -/
theorem KeepsSelections.of_devices_eq {s' s t : State} (h : KeepsSelections s' t) (hd : s'.devices = s.devices) :
    KeepsSelections s t :=
  fun g d hg => h g d (by rwa [deviceAt_eq, hd])

/-- Rules R64, R68, R81: CONNECT, READ and DISCONNECT keep the selection of the instance they act on. -/
theorem sel_of_eventOn {i : Instr} {e : Device → Device × Answer} (hi : eventOn i = some e)
    (hw : ∀ b, i ≠ .write b) (d : Device) : (e d).1.sel = d.sel := by
  cases i with
  | connect a r => obtain rfl := Option.some.inj hi; rfl
  | read o => obtain rfl := Option.some.inj hi; rfl
  | write b => exact absurd rfl (hw b)
  | disconnect b => obtain rfl := Option.some.inj hi; rfl
  | selMeasurement => simp [eventOn] at hi
  | selProductId => simp [eventOn] at hi
  | selUnrecognized b => simp [eventOn] at hi

/-- Replacing one instance by one of the same selection keeps every selection. -/
theorem keepsSelections_of_set {s t : State} {d d' : Device} (hd : s.deviceAt s.context = some d)
    (ht : t.devices = s.devices.set s.context.index d') (hsel : d'.sel = d.sel) : KeepsSelections s t := by
  intro h g hg
  rw [deviceAt_eq, ht, getElem?_set_handle _ _ _ _ _ hd]
  by_cases hh : h = s.context
  · obtain rfl : d = g := Option.some.inj (hd.symm.trans (hh ▸ hg))
    exact ⟨d', if_pos hh, hsel⟩
  · exact ⟨g, (if_neg hh).trans hg, rfl⟩

/-- Every instruction but WRITE keeps every selection. -/
theorem exec_keepsSelections {i : Instr} {s t : State} (h : exec i s = .next t) (hw : ∀ b, i ≠ .write b) :
    KeepsSelections s t := by
  rcases exec_next h with ⟨e, d, he, hd, rfl⟩ | ⟨-, r, rfl⟩
  case inl => exact keepsSelections_of_set hd rfl (sel_of_eventOn he hw d)
  case inr => exact (KeepsSelections.refl _).of_devices_eq rfl

/-- Rule R58: CREATE appends, so the instances before it stand at their handles. -/
theorem createInstance_keepsSelections {s t : State} (h : createInstance s = .next t) : KeepsSelections s t := by
  obtain ⟨-, rfl⟩ := createInstance_next h
  intro g d hd
  have hlt : g.index < s.devices.length := (List.getElem?_eq_some_iff.mp hd).1
  exact ⟨d, (List.getElem?_append_left hlt).trans hd, rfl⟩

/-- A row of the register-address decoder is no WRITE: it answers and stores nothing. -/
theorem decodeSelectorRow_ne_write (c b : Byte) : decodeSelectorRow c ≠ .write b := by
  unfold decodeSelectorRow
  split_ifs <;> nofun

/-! ### The obligation -/

/-- Settles O24, by the input that the step takes. -/
theorem selectionIsSticky : Obligations.SelectionIsSticky := by
  unfold Obligations.SelectionIsSticky
  intro s t hst hin
  change KeepsSelections s t
  rcases inputs_cases s with hs | ⟨x, rest, hs, hx⟩
  · rw [step_nil hs] at hst
    obtain rfl := Host.Outcome.next.inj hst
    exact (KeepsSelections.refl _).of_devices_eq rfl
  · obtain ⟨notReset, notWrite⟩ := hin x (by simp [hs])
    rcases hx with rfl | ⟨b, rfl⟩ | ⟨p, q, rfl⟩ | hr | ⟨g, i, he⟩ | ⟨p, rfl, hr, hv⟩
    · rw [step_create hs] at hst
      exact (createInstance_keepsSelections hst).of_devices_eq rfl
    · rw [step_selector hs] at hst
      exact (exec_keepsSelections hst (decodeSelectorRow_ne_write b)).of_devices_eq rfl
    · simp [step_overlap hs] at hst
    · simp [notReset] at hr
    · rw [step_event hs he] at hst
      exact (exec_keepsSelections hst fun b hb => notWrite g b (hb ▸ he)).of_devices_eq rfl
    · rw [step_idleCycle hs hr hv] at hst
      obtain rfl := Host.Outcome.next.inj hst
      exact (KeepsSelections.refl _).of_devices_eq rfl

end Sys2Proof.Machine
end

