-- ==== Sys2Proof/Proofs/ResetEvent.lean ====
section
/-! RESET (rule R100): a step with `rst` leaves as many instances as before, each as it was created. -/

namespace Sys2Proof.Machine

/-- Rule R100: after a reset no instance has another state than the initial one. -/
theorem eq_reset_of_mem_resetInstances {s : State} {d : Device} (h : d ∈ (resetInstances s).devices) :
    d = Device.reset := by
  rw [resetInstances_devices] at h
  exact List.eq_of_mem_map_const h

/-! ### The obligation -/

/-- Settles O33: `rst` makes the step a reset whether or not the cycle presents an event (rule R93). -/
theorem resetPutsInitialState : Obligations.ResetPutsInitialState := by
  unfold Obligations.ResetPutsInitialState
  intro s p rest hs hr
  refine ⟨resetInstances { s with inputs := rest }, step_reset hs hr, ?sameNumber, ?initial, rfl, rfl⟩
  case sameNumber => simp
  case initial =>
    intro d hd
    obtain rfl := eq_reset_of_mem_resetInstances hd
    exact ⟨Device.reset_phase, Device.reset_sel⟩

end Sys2Proof.Machine
end

