-- ==== Sys2Proof/Proofs/InstructionWords.lean ====
section
/-! Words and instructions (rules R42 to R47, R50 to R52): decoder and encoder undo each other, on words, on numbers
and in the notation. -/

namespace Sys2Proof

/-! ### The rows of the register-address decoder -/

theorem wf_selUnrecognized_iff (b : Byte) :
    (Instr.selUnrecognized b).wf = true ↔ b ≠ measurementSelector ∧ b ≠ productIdSelector := by
  simp [Instr.wf, measurementSelector, productIdSelector]

@[simp] theorem decodeSelectorRow_measurementSelector : decodeSelectorRow measurementSelector = .selMeasurement := rfl

@[simp] theorem decodeSelectorRow_productIdSelector : decodeSelectorRow productIdSelector = .selProductId := rfl

/-- The default row is reached by exactly the bytes for which it is well formed (rule R47). -/
theorem decodeSelectorRow_of_wf {b : Byte} (h : (Instr.selUnrecognized b).wf = true) :
    decodeSelectorRow b = .selUnrecognized b := by
  obtain ⟨hm, hp⟩ := (wf_selUnrecognized_iff b).mp h
  rw [decodeSelectorRow, if_neg hm, if_neg hp]

theorem encode_decodeSelectorRow (b : Byte) : encode (decodeSelectorRow b) = .selector b := by
  unfold decodeSelectorRow
  split_ifs with hm hp
  · rw [hm, encode]
  · rw [hp, encode]
  · rfl

theorem wf_decodeSelectorRow (b : Byte) : (decodeSelectorRow b).wf = true := by
  unfold decodeSelectorRow
  split_ifs with hm hp
  · rfl
  · rfl
  · exact (wf_selUnrecognized_iff b).mpr ⟨hm, hp⟩

theorem wf_decodeEvent (w : EventWord) : (decodeEvent w).wf = true := by
  unfold decodeEvent
  split_ifs <;> rfl

/-! ### Words -/

theorem decodeWord_encode {i : Instr} (h : i.wf = true) : decodeWord (encode i) = i := by
  cases i with
  | connect a r => exact decodeEvent_connect a r
  | read o => exact decodeEvent_read o
  | write b => exact decodeEvent_write b
  | disconnect b => exact decodeEvent_disconnect b
  | selMeasurement => exact decodeSelectorRow_measurementSelector
  | selProductId => exact decodeSelectorRow_productIdSelector
  | selUnrecognized b => exact decodeSelectorRow_of_wf h

theorem encode_decodeWord (c : CodeWord) : encode (decodeWord c) = c := by
  cases c with
  | event w => exact encode_decodeEvent w
  | selector b => exact encode_decodeSelectorRow b

theorem wf_decodeWord (c : CodeWord) : (decodeWord c).wf = true := by
  cases c with
  | event w => exact wf_decodeEvent w
  | selector b => exact wf_decodeSelectorRow b

/-! ### Numbers -/

theorem decodeTableWord_eq_none_iff (nbits w : Nat) :
    decodeTableWord nbits w = none ↔ ∃ e, codeWordOf nbits w = .error e := by
  unfold decodeTableWord decode
  cases codeWordOf nbits w with
  | ok c => simp
  | error e => simp

theorem decodeTableWord_eq_some_iff (nbits w : Nat) (i : Instr) :
    decodeTableWord nbits w = some i ↔ ∃ c, codeWordOf nbits w = .ok c ∧ decodeWord c = i := by
  unfold decodeTableWord decode
  cases codeWordOf nbits w with
  | ok c => simp
  | error e => simp

/-- A number is refused for a bit too high in the format of its width, or for a width of no format. -/
theorem codeWordOf_error_iff (nbits w : Nat) :
    (∃ e, codeWordOf nbits w = .error e) ↔
      (nbits = 8 ∧ 256 ≤ w) ∨ (10 ≤ nbits ∧ 1024 ≤ w) ∨ (nbits ≠ 8 ∧ nbits < 10) := by
  unfold codeWordOf
  split_ifs with hsel hbyte hev hword
  · exact iff_of_false nofun (by omega)
  · exact iff_of_true ⟨_, rfl⟩ (by omega)
  · exact iff_of_false nofun (by omega)
  · exact iff_of_true ⟨_, rfl⟩ (by omega)
  · exact iff_of_true ⟨_, rfl⟩ (by omega)

end Sys2Proof

namespace Sys2Proof.Machine

/-! ### The notation -/

/-- Rule R51: the word of a CONNECT line that gives its address, as a number. -/
theorem lineWord_connect_address (a : Address) (r : Bool) :
    lineWord (.connect r (some a)) = some (.event (BitVec.ofNat 10 (2 * a.toNat + r.toNat))) :=
  congrArg some (decodeEvent_eq_iff.mp (decodeEvent_ofNat_connect a r))

/-- Rule R51: the word of a WR line, as a number. -/
theorem lineWord_wr (b : Byte) : lineWord (.wr b) = some (.event (BitVec.ofNat 10 (0x200 + b.toNat))) :=
  congrArg some (decodeEvent_eq_iff.mp (decodeEvent_ofNat_write b))

/-- Rule R51: the word of a STOP line that gives its operand, as a number. -/
theorem lineWord_stop_operand (b : Byte) :
    lineWord (.stop (some b)) = some (.event (BitVec.ofNat 10 (0x300 + b.toNat))) :=
  congrArg some (decodeEvent_eq_iff.mp (decodeEvent_ofNat_disconnect b))

/-! ### The obligations -/

/-- Settles O2: one decoding lemma per row; the default row is where well-formedness is needed. -/
theorem decodeOfEncode : Obligations.DecodeOfEncode := by
  unfold Obligations.DecodeOfEncode
  exact fun _ => decodeWord_encode

/-- Settles O3, by the format of the word. -/
theorem encodeOfDecode : Obligations.EncodeOfDecode := by
  unfold Obligations.EncodeOfDecode
  exact fun c => ⟨encode_decodeWord c, wf_decodeWord c⟩

/-- Settles O1: the fourteen words are decoded. -/
theorem tableWordsDecode : Obligations.TableWordsDecode := by
  unfold Obligations.TableWordsDecode
  decide

/-- Settles O7: the table's decoder refuses a number exactly where reading it as a word does. -/
theorem numbersRefused : Obligations.NumbersRefused := by
  unfold Obligations.NumbersRefused
  intro nbits w
  rw [decodeTableWord_eq_none_iff, codeWordOf_error_iff]

/-- Settles O9: a line with an operand by the number of its word; the lines without one are evaluated, and so are the
three expansions. -/
theorem notationWords : Obligations.NotationWords := by
  unfold Obligations.NotationWords
  exact ⟨by decide, by decide, fun a => lineWord_connect_address a true, fun a => lineWord_connect_address a false,
    by decide, lineWord_wr, by decide, lineWord_stop_operand, rfl, fun _ => rfl, fun _ _ => rfl, fun _ => rfl⟩

end Sys2Proof.Machine
end

