-- ==== Sys2Proof/Proofs/InstructionMeanings.lean ====
section
/-! What each instruction leaves and answers (rules R22, R46 to R48, R60, R66, R75, R78, R87): consequences of the one
equation each event has on the instance the handle names, and of the decoder's rows changing the response alone. -/

namespace Sys2Proof.Machine

/-! ### Events -/

/-- If an event answers a next state, it has acted on the instance that the handle names. -/
theorem exec_event_next {i : Instr} {e : Device → Device × Answer} {s t : State} (he : eventOn i = some e)
    (h : exec i s = .next t) :
    ∃ d, s.devices[s.context.index]? = some d ∧
      t = { s with
        devices := s.devices.set s.context.index (e d).1
        response := some (.ofInstance s.context (e d).2) } := by
  rw [exec_of_eventOn he] at h
  exact onInstance_next h

/-- The selected instance after it has been written. -/
theorem getElem?_set_of_some {l : List Device} {n : Nat} {d : Device} (d' : Device) (h : l[n]? = some d) :
    (l.set n d')[n]? = some d' :=
  List.getElem?_set_self (List.getElem?_eq_some_iff.mp h).1

/-! ### The rows of the register-address decoder -/

theorem exec_selMeasurement (s : State) :
    exec .selMeasurement s = .next { s with response := some (.register .measurement) } := rfl

theorem exec_selProductId (s : State) :
    exec .selProductId s = .next { s with response := some (.register .productId) } := rfl

theorem exec_selUnrecognized (b : Byte) (s : State) :
    exec (.selUnrecognized b) s = .next { s with response := some (.register (decodeSelector b)) } := rfl

/-- Rule R47: the bytes for which the default row is well formed select nothing. -/
theorem decodeSelector_of_wf {b : Byte} (h : (Instr.selUnrecognized b).wf = true) :
    decodeSelector b = .unrecognized :=
  (decodeSelector_eq_unrecognized_iff b).mpr ((wf_selUnrecognized_iff b).mp h)

/-! ### The counters and the multiplexer -/

/-- Rule R78: the write counter never leads into a read phase. -/
theorem readIndex_writeNext (p : Phase) : readIndex (writeNext p) = none := by
  cases p <;> rfl

/-- A READ right behind a WRITE is in the default arm, whatever is selected. -/
theorem respMux_writeNext (reg : Register) (p : Phase) :
    respMux reg (writeNext p) = (sentinel, .awaitingTransactionStart) :=
  respMux_of_no_romByte (by rw [readIndex_writeNext, Option.bind_none])

theorem writeNext_of_writeDesynchronised {p : Phase} (h : p.writeDesynchronised = true) :
    writeNext p = .awaitingTransactionStart := by
  cases p with
  | writeByte1 => cases h
  | writeByte2 => cases h
  | _ => rfl

/-- Rule R24: no ROM byte is the sentinel. -/
theorem sentinel_notMem_responseTable (reg : Register) : sentinel ∉ responseTable reg := by
  cases reg <;> decide

/-- Rule R75 (e): the sentinel comes from the default arm alone, for the ROM does not hold it. -/
theorem respMux_byte_eq_sentinel_iff (d : Device) :
    (respMux d.sel d.phase).1 = sentinel ↔ d.readDesynchronised = true := by
  constructor
  · intro hbyte
    rw [readDesynchronised_iff_no_romByte]
    cases hrom : (readIndex d.phase).bind (rom d.sel) with
    | none => rfl
    | some b =>
      obtain ⟨idx, hidx, hb⟩ := Option.bind_eq_some_iff.mp hrom
      rw [respMux_of_rom hidx hb] at hbyte
      exact absurd (hbyte ▸ List.mem_of_getElem? hb) (sentinel_notMem_responseTable d.sel)
  · intro hdesync
    rw [respMux_of_readDesynchronised hdesync]

/-! ### The obligations -/

/-- Settles O15: the second CONNECT writes the same instance again, and the first has kept its selection. -/
theorem connectOverridesConnect : Obligations.ConnectOverridesConnect := by
  unfold Obligations.ConnectOverridesConnect
  intro s t a a' r r' h
  obtain ⟨d, hd, rfl⟩ := exec_event_next (e := connectDevice r) rfl h
  rw [exec_connect_of_some a' r' hd, exec_connect_of_some a' r' (getElem?_set_of_some _ hd)]
  simp only [List.set_set]
  rfl

/-- Settles O19: one equation per row. -/
theorem selectorRowsComplete : Obligations.SelectorRowsComplete := by
  unfold Obligations.SelectorRowsComplete
  intro s
  refine ⟨exec_selMeasurement s, exec_selProductId s, ?defaultRow, length_responseTable_measurement,
    length_responseTable_productId, length_responseTable_unrecognized⟩
  case defaultRow =>
    intro b hb
    rw [exec_selUnrecognized, decodeSelector_of_wf hb]

/-- Settles O20: the row answers `decodeSelector b`, which WRITE stores. -/
theorem writeStoresDecoderResult : Obligations.WriteStoresDecoderResult := by
  unfold Obligations.WriteStoresDecoderResult
  intro s d b hd
  exact ⟨decodeSelector b, _, _, exec_selectorRow b s, rfl, rfl, exec_write_of_some b hd, getElem?_set_of_some _ hd⟩

/-- Settles O21: an event writes the instance of its handle alone, and a row of the decoder none. -/
theorem otherInstancesUnchanged : Obligations.OtherInstancesUnchanged := by
  unfold Obligations.OtherInstancesUnchanged
  intro i s t h
  obtain ⟨e, d, -, hd, rfl⟩ | ⟨-, r, rfl⟩ := exec_next h
  case inl =>
    refine ⟨?others, List.length_set, rfl, rfl, rfl⟩
    case others =>
      intro g hg
      rw [deviceAt_eq, deviceAt_eq, getElem?_set_handle _ _ _ _ _ hd, if_neg hg]
  case inr => exact ⟨fun _ _ => rfl, rfl, rfl, rfl, rfl⟩

/-- Settles O22, by the instruction: an event answers what it answers on one instance, a row its register. -/
theorem responseOfEachInstruction : Obligations.ResponseOfEachInstruction := by
  unfold Obligations.ResponseOfEachInstruction
  intro i s t h
  cases i with
  | connect a r => obtain ⟨d, -, rfl⟩ := exec_event_next (e := connectDevice r) rfl h; rfl
  | read o => obtain ⟨d, -, rfl⟩ := exec_event_next (e := readDevice) rfl h; exact ⟨_, rfl⟩
  | write b => obtain ⟨d, -, rfl⟩ := exec_event_next (e := writeDevice b) rfl h; rfl
  | disconnect b => obtain ⟨d, -, rfl⟩ := exec_event_next (e := disconnectDevice) rfl h; rfl
  | selMeasurement => obtain rfl := Host.Outcome.next.inj ((exec_selMeasurement s).symm.trans h); rfl
  | selProductId => obtain rfl := Host.Outcome.next.inj ((exec_selProductId s).symm.trans h); rfl
  | selUnrecognized b => obtain rfl := Host.Outcome.next.inj ((exec_selUnrecognized b s).symm.trans h); rfl

/-- Settles O23: the port shows the answer of each event. -/
theorem portOutputs : Obligations.PortOutputs := by
  unfold Obligations.PortOutputs
  intro s d hd
  exact ⟨fun a r => ⟨_, _, exec_connect_of_some a r hd, rfl, rfl⟩, fun b => ⟨_, _, exec_write_of_some b hd, rfl, rfl⟩,
    fun o => ⟨_, _, exec_read_of_some o hd, rfl, rfl⟩⟩

/-- Settles O25: the counter's table is evaluated; the READ finds the phase that the counter has left. -/
theorem writeCounter : Obligations.WriteCounter := by
  unfold Obligations.WriteCounter
  refine ⟨rfl, ?readAfterWrite⟩
  intro s d b o hd
  have hd' := getElem?_set_of_some ⟨writeNext d.phase, decodeSelector b⟩ hd
  refine ⟨_, _, exec_write_of_some b hd, hd', rfl, exec_read_of_some o hd', ?zero⟩
  case zero => rw [respMux_writeNext, sentinel]

/-- Settles O27: the byte that READ answers is the multiplexer's. -/
theorem zeroByteMeansDesynchronised : Obligations.ZeroByteMeansDesynchronised := by
  unfold Obligations.ZeroByteMeansDesynchronised
  intro s t d o hd h
  obtain rfl := Host.Outcome.next.inj ((exec_read_of_some o hd).symm.trans h)
  rw [← respMux_byte_eq_sentinel_iff, sentinel]
  simp

/-- Settles O28: in such a phase the write counter steps to idle. -/
theorem desynchronisedWrite : Obligations.DesynchronisedWrite := by
  unfold Obligations.DesynchronisedWrite
  intro s d b hd hdesync
  rw [exec_write_of_some b hd, writeNext_of_writeDesynchronised hdesync]

end Sys2Proof.Machine
end

