-- ==== Sys2Proof/Proofs/StepEffect.lean ====
section
/-! Everything a step can do, once: how it stops (rules R59, R61, R91, R105), and what it makes of the instances, the
stage and the response where it goes on (rules R41, R58, R60, R100). -/

namespace Sys2Proof.Machine

/-! ### Instructions -/

theorem isEvent_decodeSelectorRow (b : Byte) : isEvent (decodeSelectorRow b) = false := by
  unfold decodeSelectorRow
  split_ifs <;> rfl

/-- An event completes, or its handle names no instance. -/
theorem exec_event_cases {i : Instr} (hi : isEvent i = true) (s : State) :
    (∃ t, exec i s = .next t) ∨
      (s.devices.length ≤ s.context.index ∧ exec i s = .fault (.hostIntegration s.context)) := by
  cases hd : s.devices[s.context.index]? with
  | none =>
    have hlen := List.getElem?_eq_none_iff.mp hd
    exact .inr ⟨hlen, exec_of_unknownHandle hi hlen⟩
  | some d =>
    obtain ⟨e, he⟩ := eventOn_of_isEvent hi
    exact .inl ⟨_, exec_of_eventOn_of_some he hd⟩

theorem createInstance_of_initialisation {s : State} (h : s.stage = .initialisation) :
    createInstance s = .next { s with
      devices := s.devices ++ [Device.reset]
      response := some (.created ⟨s.devices.length⟩) } := by
  simp [createInstance, h]

theorem createInstance_of_run {s : State} (h : s.stage = .run) : createInstance s = .refused .createInRunStage := by
  simp [createInstance, h]

/-! ### How a step stops -/

/-- A step goes on, or it is refused for a late CREATE or an overlap, or it faults at an unknown handle. -/
theorem step_cases (s : State) :
    (∃ t, step s = .next t) ∨
    (s.stage = .run ∧ (∃ rest, s.inputs = .create :: rest) ∧ step s = .refused .createInRunStage) ∨
    ((∃ p q rest, s.inputs = .overlap p q :: rest) ∧ step s = .refused .overlappingEvents) ∨
    (∃ x rest h i, s.inputs = x :: rest ∧ x.event? = some (h, i) ∧ s.devices.length ≤ h.index ∧
      step s = .fault (.hostIntegration h)) := by
  rcases inputs_cases s with hs | ⟨x, rest, hs, hx⟩
  · exact .inl ⟨_, step_nil hs⟩
  · rcases hx with rfl | ⟨b, rfl⟩ | ⟨p, q, rfl⟩ | hr | ⟨h, i, he⟩ | ⟨p, rfl, hr, hv⟩
    · cases hstage : s.stage with
      | initialisation => exact .inl ⟨_, (step_create hs).trans (createInstance_of_initialisation hstage)⟩
      | run => exact .inr (.inl ⟨rfl, ⟨rest, hs⟩, (step_create hs).trans (createInstance_of_run hstage)⟩)
    · exact .inl ⟨_, (step_selector hs).trans (exec_selectorRow b _)⟩
    · exact .inr (.inr (.inl ⟨⟨p, q, rest, hs⟩, step_overlap hs⟩))
    · exact .inl ⟨_, step_reset hs hr⟩
    · rcases exec_event_cases (isEvent_of_event? he) (deliver { s with inputs := rest } h) with ⟨t, ht⟩ | ⟨hlen, hfault⟩
      · exact .inl ⟨t, (step_event hs he).trans ht⟩
      · exact .inr (.inr (.inr ⟨x, rest, h, i, hs, he, hlen, (step_event hs he).trans hfault⟩))
    · exact .inl ⟨_, step_idleCycle hs hr hv⟩

/-- Where the first step stops, nothing is answered. -/
theorem transcript_of_stop (k : Nat) {s : State} (h : ∀ t, step s ≠ .next t) : transcript (k + 1) s = [] := by
  rw [transcript]
  cases hst : step s with
  | next t => exact absurd hst (h t)
  | fault f => rfl
  | refused r => rfl

/-! ### Port cycles -/

theorem fetch_facing_cycle (s : State) (p : PortCycle) (rest : List Input) :
    fetch (s.facing (.cycle p :: rest)) = fetchCycle p (s.facing rest) := rfl

/-- Rule R41: the levels of the two bus pins play no part in a port cycle. -/
theorem fetchCycle_pins (p : PortCycle) (scl sda : Bool) (s : State) :
    fetchCycle { p with scl := scl, sda := sda } s = fetchCycle p s := rfl

/-! ### What a step leaves -/

/-- What a step that goes on leaves, by the input it takes. -/
inductive StepEffect (s t : State) : Prop where
  /-- An idle port or a decoder byte: no instance acts or answers. -/
  | quiet (noEvent : ∀ x, s.inputs.head? = some x → x.event? = none ∧ x.isReset = false)
      (devices : t.devices = s.devices) (stage : t.stage = s.stage)
      (response : ∀ h, answersOf h t.response.toList = [])
  /-- CREATE (rule R58). -/
  | create (input : s.inputs.head? = some .create) (initialisation : s.stage = .initialisation)
      (devices : t.devices = s.devices ++ [Device.reset]) (stage : t.stage = s.stage)
      (response : ∀ h, answersOf h t.response.toList = [])
  /-- RESET (rule R100). -/
  | reset {x : Input} (input : s.inputs.head? = some x) (isReset : x.isReset = true)
      (devices : t.devices = s.devices.map fun _ => Device.reset) (stage : t.stage = .run)
      (response : ∀ h, answersOf h t.response.toList = [])
  /-- An event for the instance `h` (rule R60). -/
  | event {x : Input} {h : Handle} {i : Instr} {e : Device → Device × Answer} {d : Device}
      (input : s.inputs.head? = some x) (isEvent : x.event? = some (h, i)) (meaning : eventOn i = some e)
      (device : s.deviceAt h = some d) (devices : t.devices = s.devices.set h.index (e d).1)
      (stage : t.stage = .run) (response : t.response = some (.ofInstance h (e d).2))

theorem stepEffect_of_next {s t : State} (hst : step s = .next t) : StepEffect s t := by
  rcases inputs_cases s with hs | ⟨x, rest, hs, hx⟩
  · obtain rfl := Host.Outcome.next.inj ((step_nil hs).symm.trans hst)
    exact .quiet (by simp [hs]) rfl rfl fun _ => rfl
  · have hhead : s.inputs.head? = some x := by rw [hs, List.head?_cons]
    rcases hx with rfl | ⟨b, rfl⟩ | ⟨p, q, rfl⟩ | hr | ⟨h, i, he⟩ | ⟨p, rfl, hr, hv⟩
    · rw [step_create hs] at hst
      obtain ⟨hstage, rfl⟩ := createInstance_next hst
      exact .create hhead hstage rfl rfl fun _ => rfl
    · rw [step_selector hs, exec_selectorRow] at hst
      obtain rfl := Host.Outcome.next.inj hst
      exact .quiet (by simp [hs, Input.event?, Input.isReset]) rfl rfl fun _ => rfl
    · simp [step_overlap hs] at hst
    · obtain rfl := Host.Outcome.next.inj ((step_reset hs hr).symm.trans hst)
      exact .reset hhead hr rfl rfl fun _ => rfl
    · obtain ⟨e, hmeaning⟩ := eventOn_of_isEvent (isEvent_of_event? he)
      rw [step_event hs he] at hst
      obtain ⟨d, hd, rfl⟩ := exec_event_next hmeaning hst
      exact .event hhead he hmeaning hd rfl rfl rfl
    · obtain rfl := Host.Outcome.next.inj ((step_idleCycle hs hr hv).symm.trans hst)
      exact .quiet (by simp [hs, Input.event?, Input.isReset, hr, hv]) rfl rfl fun _ => rfl

/-! ### The obligations -/

/-- Settles O36: of the ways a step stops only one is a fault. -/
theorem faultOnlyFromUnknownHandle : Obligations.FaultOnlyFromUnknownHandle := by
  unfold Obligations.FaultOnlyFromUnknownHandle
  intro s f hf
  obtain ⟨t, h⟩ | ⟨-, -, h⟩ | ⟨-, h⟩ | ⟨x, rest, g, i, hs, he, hlen, h⟩ := step_cases s
  · simp [h] at hf
  · simp [h] at hf
  · simp [h] at hf
  · exact ⟨x, rest, g, i, hs, he, hlen, Host.Outcome.fault.inj (hf.symm.trans h)⟩

/-- Settles O37: two of the ways a step stops are refusals, and each breach is refused. -/
theorem refusalsAreTheHostsBreaches : Obligations.RefusalsAreTheHostsBreaches := by
  unfold Obligations.RefusalsAreTheHostsBreaches
  intro s r
  constructor
  · intro hr
    obtain ⟨t, h⟩ | ⟨hstage, hs, h⟩ | ⟨hs, h⟩ | ⟨x, rest, g, i, -, -, -, h⟩ := step_cases s
    · simp [h] at hr
    · exact .inl ⟨Host.Outcome.refused.inj (hr.symm.trans h), hstage, hs⟩
    · exact .inr ⟨Host.Outcome.refused.inj (hr.symm.trans h), hs⟩
    · simp [h] at hr
  · rintro (⟨rfl, hstage, rest, hs⟩ | ⟨rfl, p, q, rest, hs⟩)
    · exact (step_create hs).trans (createInstance_of_run hstage)
    · exact step_overlap hs

/-- Settles O38: CREATE alone changes the number of instances, and it goes on in the initialisation stage alone. -/
theorem runStageIsForever : Obligations.RunStageIsForever := by
  unfold Obligations.RunStageIsForever
  intro s t hst
  cases stepEffect_of_next hst with
  | quiet _ devices stage => exact ⟨fun h => ⟨stage.trans h, by rw [devices]⟩, by rw [devices]⟩
  | create _ initialisation devices => exact ⟨fun h => by simp [h] at initialisation, by simp [devices]⟩
  | reset _ _ devices stage => exact ⟨fun _ => ⟨stage, by simp [devices]⟩, by simp [devices]⟩
  | event _ _ _ _ devices stage => exact ⟨fun _ => ⟨stage, by simp [devices]⟩, by simp [devices]⟩

/-- Settles O39: an event or a reset leaves the run stage, and the other inputs leave the stage they found. -/
theorem eventOrResetBeginsRunStage : Obligations.EventOrResetBeginsRunStage := by
  unfold Obligations.EventOrResetBeginsRunStage
  intro s t hst
  cases stepEffect_of_next hst with
  | quiet noEvent _ stage =>
    refine ⟨?_, fun _ => stage⟩
    intro x rest hs hx
    obtain ⟨he, hr⟩ := noEvent x (by simp [hs])
    simp [he, hr] at hx
  | create input _ _ stage =>
    refine ⟨?_, fun _ => stage⟩
    intro x rest hs hx
    obtain rfl : x = .create := by simpa [hs] using input
    simp [Input.event?, Input.isReset] at hx
  | @reset x input isReset _ stage =>
    refine ⟨fun _ _ _ _ => stage, fun hx => ?_⟩
    obtain ⟨rest, hs⟩ := List.head?_eq_some_iff.mp input
    simp [(hx x rest hs).2] at isReset
  | @event x _ _ _ _ input isEvent _ _ _ stage =>
    refine ⟨fun _ _ _ _ => stage, fun hx => ?_⟩
    obtain ⟨rest, hs⟩ := List.head?_eq_some_iff.mp input
    simp [(hx x rest hs).1] at isEvent

/-- Settles O34: CREATE's own equation, on the state from which the input has been taken. -/
theorem createAppendsInstance : Obligations.CreateAppendsInstance := by
  unfold Obligations.CreateAppendsInstance
  intro s rest hs hstage
  exact (step_create hs).trans (createInstance_of_initialisation hstage)

/-- Settles O31: an idle cycle and an exhausted host are the two idle ports of the step. -/
theorem idlePortChangesNothing : Obligations.IdlePortChangesNothing := by
  unfold Obligations.IdlePortChangesNothing
  exact ⟨fun _ _ _ => step_idleCycle, fun _ => step_nil⟩

/-- Settles O32: `fetchCycle`, the one reader of a port cycle, uses neither pin. -/
theorem pinsUnread : Obligations.PinsUnread := by
  unfold Obligations.PinsUnread
  intro s p rest scl sda
  rw [step, step, fetch_facing_cycle, fetch_facing_cycle, fetchCycle_pins p scl sda]

/-- Settles O30, by the format of the word in the third clause. -/
theorem stepRunsDecodedInstruction : Obligations.StepRunsDecodedInstruction := by
  unfold Obligations.StepRunsDecodedInstruction
  refine ⟨?eventAtPort, fun _ _ _ => step_selector, ?placedWord⟩
  case eventAtPort =>
    intro s p rest hs hr hv
    exact step_event hs (by simp [Input.event?, hr, hv])
  case placedWord =>
    intro s nbits w i hi
    obtain ⟨c, hc, rfl⟩ := (decodeTableWord_eq_some_iff nbits w i).mp hi
    simp only [State.withFetchWord, hc]
    cases c with
    | event w =>
      rw [decodeWord, if_pos (isEvent_decodeEvent w)]
      exact step_event rfl (by simp [inputOf, Input.event?, eventCycle]; rfl)
    | selector b =>
      rw [decodeWord, if_neg (by simp [isEvent_decodeSelectorRow])]
      exact step_selector rfl

end Sys2Proof.Machine
end

