-- ==== Sys2Proof/Proofs/Invariants.lean ====
section
/-! Invariants of the instances (rules R21, R112, R114): what holds of an instance as created and is kept by every
event holds of every instance for ever. -/

namespace Sys2Proof.Machine

/-! ### One induction for all invariants -/

/-- Every step keeps a property of instances that a created instance has and the event of the step keeps. -/
theorem step_keeps_forall_devices {P : Device → Prop} {s t : State} (hst : step s = .next t) (hreset : P Device.reset)
    (hevent : ∀ {x h i e d}, s.inputs.head? = some x → x.event? = some (h, i) → eventOn i = some e → P d → P (e d).1)
    (hs : ∀ d ∈ s.devices, P d) : ∀ d ∈ t.devices, P d := by
  intro d' hd'
  cases stepEffect_of_next hst with
  | quiet _ devices => exact hs d' (devices ▸ hd')
  | create _ _ devices =>
    rw [devices, List.mem_append, List.mem_singleton] at hd'
    obtain hold | rfl := hd'
    · exact hs d' hold
    · exact hreset
  | reset _ _ devices =>
    obtain rfl := List.eq_of_mem_map_const (devices ▸ hd')
    exact hreset
  | event input isEvent meaning device devices =>
    obtain hold | rfl := List.mem_or_eq_of_mem_set (devices ▸ hd')
    · exact hs d' hold
    · exact hevent input isEvent meaning (hs _ (List.mem_of_getElem? device))

/-- A property that every step keeps holds at the end of every run. -/
theorem run_keeps {P : State → Prop} (hstep : ∀ s t, P s → step s = .next t → P t) {k : Nat} {s t : State} (hs : P s)
    (hrun : core.run k s = .next t) : P t := by
  induction k generalizing s with
  | zero => exact Host.Outcome.next.inj hrun ▸ hs
  | succ k ih =>
    cases hst : step s with
    | next u => exact ih (hstep s u hs hst) ((run_succ k hst).symm.trans hrun)
    | fault f => simp [Host.Core.run, show core.step s = .fault f from hst] at hrun
    | refused r => simp [Host.Core.run, show core.step s = .refused r from hst] at hrun

/-! ### The reachable states of an instance -/

theorem isReachable_writeNext (p : Phase) (reg : Register) : (⟨writeNext p, reg⟩ : Device).isReachable = true := by
  cases p <;> rfl

/-- A position inside the response of the selected register is reachable. -/
theorem isReachable_readPhase {reg : Register} {idx : Nat} (h : idx < (responseTable reg).length) :
    (⟨readPhase idx, reg⟩ : Device).isReachable = true := by
  revert idx
  cases reg <;> decide

theorem isReachable_readNext (reg : Register) (idx : Nat) : (⟨readNext reg idx, reg⟩ : Device).isReachable = true := by
  unfold readNext
  split_ifs with h
  · exact isReachable_readPhase h
  · rfl

/-- Rule R21: every event leads from a reachable state to a reachable one. -/
theorem isReachable_of_eventOn {i : Instr} {e : Device → Device × Answer} {d : Device} (he : eventOn i = some e)
    (hd : d.isReachable = true) : (e d).1.isReachable = true := by
  cases i with
  | connect a r => obtain rfl := Option.some.inj he; cases r <;> rfl
  | read o =>
    obtain rfl := Option.some.inj he
    rw [readDevice]
    obtain ⟨idx, b, -, -, hmux⟩ | hmux := respMux_cases d.sel d.phase
    · rw [hmux]; exact isReachable_readNext d.sel idx
    · rw [hmux]; rfl
  | write b => obtain rfl := Option.some.inj he; exact isReachable_writeNext d.phase _
  | disconnect b => obtain rfl := Option.some.inj he; exact hd
  | selMeasurement => cases he
  | selProductId => cases he
  | selUnrecognized b => cases he

/-- The 22 states of rule R21, out of the 30. -/
def reachableDevices : List Device := allDevices.filter Device.isReachable

theorem mem_reachableDevices_iff (d : Device) : d ∈ reachableDevices ↔ d.isReachable = true := by
  simp [reachableDevices, mem_allDevices]

/-! ### The invariant -/

theorem inv_resetWith (n : Nat) : (State.resetWith n).Inv where
  reachable d hd := by rw [List.eq_of_mem_replicate hd]; rfl
  untouched _ d hd := List.eq_of_mem_replicate hd

theorem State.Inv.facing {s : State} (h : s.Inv) (l : List Input) : (s.facing l).Inv := ⟨h.reachable, h.untouched⟩

/-- An event or a reset ends the initialisation stage, so only CREATE can add to it. -/
theorem step_keeps_untouched {s t : State} (hs : s.stage = .initialisation → ∀ d ∈ s.devices, d = Device.reset)
    (hst : step s = .next t) : t.stage = .initialisation → ∀ d ∈ t.devices, d = Device.reset := by
  intro hstage d hd
  cases stepEffect_of_next hst with
  | quiet _ devices stage => exact hs (stage ▸ hstage) d (devices ▸ hd)
  | create _ initialisation devices =>
    rw [devices, List.mem_append, List.mem_singleton] at hd
    exact hd.elim (hs initialisation d) id
  | reset _ _ _ stage => simp [stage] at hstage
  | event _ _ _ _ _ stage => simp [stage] at hstage

theorem step_keeps_inv {s t : State} (hs : s.Inv) (hst : step s = .next t) : t.Inv where
  reachable := step_keeps_forall_devices hst rfl (fun _ _ => isReachable_of_eventOn) hs.reachable
  untouched := step_keeps_untouched hs.untouched hst

theorem inv_of_runInputs {inputs : List Input} {s t : State} (hs : s.Inv) (hrun : runInputs s inputs = .next t) :
    t.Inv :=
  run_keeps (fun _ _ => step_keeps_inv) (hs.facing inputs) hrun

/-! ### Nothing selected -/

/-- Rule R112: an event that is no WRITE of a selector byte selects nothing. -/
theorem sel_unrecognized_of_eventOn {i : Instr} {e : Device → Device × Answer} {d : Device} (he : eventOn i = some e)
    (hw : ∀ b, i = .write b → b ≠ 0x66#8 ∧ b ≠ 0xC8#8) (hd : d.sel = .unrecognized) :
    (e d).1.sel = .unrecognized := by
  by_cases hwrite : ∃ b, i = .write b
  · obtain ⟨b, rfl⟩ := hwrite
    obtain rfl := Option.some.inj he
    exact (decodeSelector_eq_unrecognized_iff b).mpr (hw b rfl)
  · rw [sel_of_eventOn he (fun b hb => hwrite ⟨b, hb⟩), hd]

/-- The input is no WRITE of a selector byte. -/
def Input.SelectsNothing (x : Input) : Prop :=
  ∀ g b, x.event? = some (g, .write b) → b ≠ 0x66#8 ∧ b ≠ 0xC8#8

theorem step_keeps_nothingSelected {s t : State} (hs : ∀ d ∈ s.devices, d.sel = .unrecognized)
    (hst : step s = .next t) (hin : ∀ x, s.inputs.head? = some x → x.SelectsNothing) :
    ∀ d ∈ t.devices, d.sel = .unrecognized := by
  refine step_keeps_forall_devices hst rfl ?_ hs
  intro x h i e d hx he hmeaning
  exact sel_unrecognized_of_eventOn hmeaning fun b hb => hin x hx h b (hb ▸ he)

/-- With nothing selected, the only byte an event answers is 0x00. -/
theorem byte_of_eventOn_unrecognized {i : Instr} {e : Device → Device × Answer} {d : Device} (he : eventOn i = some e)
    (hd : d.sel = .unrecognized) : ∀ b ∈ bytesIn [(e d).2], b = 0x00#8 := by
  cases i with
  | connect a r => obtain rfl := Option.some.inj he; nofun
  | read o =>
    obtain rfl := Option.some.inj he
    have hmux : respMux d.sel d.phase = (sentinel, .awaitingTransactionStart) :=
      respMux_of_no_romByte (by simp [hd])
    rw [readDevice, hmux]
    exact fun b => List.mem_singleton.mp
  | write b => obtain rfl := Option.some.inj he; nofun
  | disconnect b => obtain rfl := Option.some.inj he; nofun
  | selMeasurement => cases he
  | selProductId => cases he
  | selUnrecognized b => cases he

theorem step_byte_of_nothingSelected {s t : State} (hs : ∀ d ∈ s.devices, d.sel = .unrecognized)
    (hst : step s = .next t) (h : Handle) : ∀ b ∈ bytesIn (answersOf h t.response.toList), b = 0x00#8 := by
  cases stepEffect_of_next hst with
  | quiet _ _ _ response => rw [response]; nofun
  | create _ _ _ _ response => rw [response]; nofun
  | reset _ _ _ _ response => rw [response]; nofun
  | @event _ g _ e d _ _ meaning device _ _ response =>
    rw [response, Option.toList_some, answersOf]
    split_ifs
    · exact byte_of_eventOn_unrecognized meaning (hs d (List.mem_of_getElem? device))
    · nofun

/-- The bytes of a step come before the bytes of the rest of the run. -/
theorem bytesRead_cons {s t : State} {x : Input} {l : List Input} (h : Handle)
    (hst : step (s.facing (x :: l)) = .next t) :
    bytesRead s h (x :: l) = bytesIn (answersOf h t.response.toList) ++ bytesRead t h l := by
  rw [bytesRead, responsesTo_cons hst, answersOf_append, bytesIn_append, bytesRead]

/-- A run that stops in its first step has answered nothing. -/
theorem bytesRead_cons_of_stop {s : State} {x : Input} {l : List Input} (h : Handle)
    (hst : ∀ t, step (s.facing (x :: l)) ≠ .next t) : bytesRead s h (x :: l) = [] := by
  rw [bytesRead, responsesTo, List.length_cons, transcript_of_stop l.length hst, answersOf, bytesIn]

/-- Rule R114: with nothing selected, every byte read is 0x00 until a selector is written. -/
theorem bytesRead_of_nothingSelected (h : Handle) {inputs : List Input} {s : State}
    (hs : ∀ d ∈ s.devices, d.sel = .unrecognized) (hin : ∀ x ∈ inputs, x.SelectsNothing) :
    ∀ b ∈ bytesRead s h inputs, b = 0x00#8 := by
  induction inputs generalizing s with
  | nil => nofun
  | cons x l ih =>
    by_cases hnext : ∃ t, step (s.facing (x :: l)) = .next t
    · obtain ⟨t, hst⟩ := hnext
      have hx : ∀ y, (s.facing (x :: l)).inputs.head? = some y → y.SelectsNothing := by
        rintro y ⟨⟩
        exact hin x List.mem_cons_self
      have ht := step_keeps_nothingSelected (s := s.facing (x :: l)) hs hst hx
      rw [bytesRead_cons h hst]
      intro b hb
      obtain hfirst | hrest := List.mem_append.mp hb
      · exact step_byte_of_nothingSelected (s := s.facing (x :: l)) hs hst h b hfirst
      · exact ih ht (fun y hy => hin y (List.mem_cons_of_mem x hy)) b hrest
    · rw [bytesRead_cons_of_stop h fun t ht => hnext ⟨t, ht⟩]
      nofun

/-! ### The obligations -/

/-- Settles O40: what is evaluated is the one created instance. -/
theorem resetState : Obligations.ResetState := by
  unfold Obligations.ResetState
  refine ⟨?created, rfl, rfl⟩
  case created =>
    intro n d hd
    obtain rfl := List.eq_of_mem_replicate hd
    exact ⟨rfl, rfl, rfl, rfl⟩

/-- Settles O41: `State.reset` is a system at reset with the default number of instances. -/
theorem resetHasInvariant : Obligations.ResetHasInvariant := by
  unfold Obligations.ResetHasInvariant
  exact ⟨inv_resetWith Config.nDevices, inv_resetWith⟩

/-- Settles O42: reachability is kept event by event, and the initialisation stage knows no event. -/
theorem stepKeepsInvariant : Obligations.StepKeepsInvariant := by
  unfold Obligations.StepKeepsInvariant
  exact fun _ _ => step_keeps_inv

/-- Settles O53: the events keep `Unrecognized` one by one. -/
theorem stepKeepsNothingSelected : Obligations.StepKeepsNothingSelected := by
  unfold Obligations.StepKeepsNothingSelected
  exact fun _ _ => step_keeps_nothingSelected

/-- Settles O49: the reset leaves nothing selected and answers nothing. -/
theorem nothingSelectedReadsZero : Obligations.NothingSelectedReadsZero := by
  unfold Obligations.NothingSelectedReadsZero
  intro s p inputs h hr hin
  have hst : step (s.facing (.cycle p :: inputs)) = .next (resetInstances (s.facing inputs)) := step_reset rfl hr
  rw [bytesRead_cons h hst]
  refine bytesRead_of_nothingSelected h ?_ hin
  intro d hd
  rw [eq_reset_of_mem_resetInstances hd, Device.reset_sel]

end Sys2Proof.Machine
end

