-- ==== Sys2Proof/Proofs/Transactions.lean ====
section
/-! Whole transactions (rules R69, R77, R78, R80, R83, R95, R110): what any number of WRITEs and READs leave of
an instance and read from it, line by line; and that every reachable state of rule R21 is a position in a transaction. -/

namespace Sys2Proof.Machine

/-! ### One line of the notation, and then the others -/

section Lines
variable {p : Phase} {reg : Register} {lines : List ScriptLine} {bytes : List Byte} {d' : Device}

theorem yields_connect {r : Bool} {a : Option Address}
    (hrest : Yields ⟨if r then .readByte1 else .writeByte1, reg⟩ lines bytes d') :
    Yields ⟨p, reg⟩ (.connect r a :: lines) bytes d' :=
  yields_cons (e := connectDevice r) rfl rfl hrest

theorem yields_wr {b : Byte} (hrest : Yields ⟨writeNext p, decodeSelector b⟩ lines bytes d') :
    Yields ⟨p, reg⟩ (.wr b :: lines) bytes d' :=
  yields_cons (e := writeDevice b) rfl rfl hrest

theorem yields_stop {o : Option Byte} (hrest : Yields ⟨p, reg⟩ lines bytes d') :
    Yields ⟨p, reg⟩ (.stop o :: lines) bytes d' :=
  yields_cons (e := disconnectDevice) rfl rfl hrest

end Lines

/-! ### Any number of written bytes -/

/-- Rule R77: each WRITE stores the selection of its byte, so the last one stays; the write counter steps once a byte. -/
theorem yields_writes {written : List Byte} {b : Byte} {p : Phase} {reg : Register} {lines : List ScriptLine}
    {bytes : List Byte} {d' : Device}
    (hrest : Yields ⟨writeNext^[written.length + 1] p, decodeSelector b⟩ lines bytes d') :
    Yields ⟨p, reg⟩ ((written ++ [b]).map .wr ++ lines) bytes d' := by
  induction written generalizing p reg with
  | nil => exact yields_wr hrest
  | cons c written ih => exact yields_wr (ih hrest)

/-- Rules R77, R81: a write transaction, from any state of an instance. -/
theorem yields_writeTransaction {written : List Byte} (d : Device) (b : Byte) :
    Yields d (writeTransaction (written ++ [b])) [] ⟨writeNext^[written.length + 1] .writeByte1, decodeSelector b⟩ :=
  yields_connect (yields_writes (yields_stop (yields_nil _)))

/-- Rule R80 (a): the phase after `n` bytes and one more. -/
theorem iterate_writeNext_writeByte1 (n : Nat) :
    writeNext^[n + 1] .writeByte1 =
      if n = 0 then .writeByte2 else if n = 1 then .writeByte3 else .awaitingTransactionStart := by
  match n with
  | 0 => rfl
  | 1 => rfl
  | n + 2 =>
    have idle : writeNext^[n] .awaitingTransactionStart = .awaitingTransactionStart := Function.iterate_fixed rfl n
    rw [if_neg (by omega), if_neg (by omega)]
    exact idle

/-! ### Any number of bytes read -/

/-- The phase after CONNECT R and `n` READs of a register: the position of the next byte, or idle past the last. -/
def phaseAfterReads (reg : Register) (n : Nat) : Phase :=
  if n = 0 then .readByte1
  else if n < (responseTable reg).length then readPhase n
  else .awaitingTransactionStart

theorem phaseAfterReads_of_lt {reg : Register} {n : Nat} (h : n < (responseTable reg).length) :
    phaseAfterReads reg n = readPhase n := by
  cases n with
  | zero => rfl
  | succ n => rw [phaseAfterReads, if_neg n.succ_ne_zero, if_pos h]

theorem phaseAfterReads_succ (reg : Register) (n : Nat) : phaseAfterReads reg (n + 1) = readNext reg n := by
  rw [phaseAfterReads, if_neg n.succ_ne_zero, readNext]

/-- Past the response the ROM has no byte: an empty response has none in the first phase, and an idle instance asks
for none. -/
theorem no_romByte_phaseAfterReads {reg : Register} {n : Nat} (h : (responseTable reg).length ≤ n) :
    (readIndex (phaseAfterReads reg n)).bind (rom reg) = none := by
  cases n with
  | zero => exact List.getElem?_eq_none h
  | succ n =>
    rw [phaseAfterReads, if_neg n.succ_ne_zero, if_neg h.not_gt]
    rfl

/-- Rules R69, R72: the READ at position `n` answers the byte there, or 0x00 past the response, and goes on. -/
theorem respMux_phaseAfterReads (reg : Register) (n : Nat) :
    respMux reg (phaseAfterReads reg n) = ((responseTable reg)[n]?.getD sentinel, phaseAfterReads reg (n + 1)) := by
  cases hb : (responseTable reg)[n]? with
  | some b =>
    have hlt := (List.getElem?_eq_some_iff.mp hb).1
    rw [phaseAfterReads_of_lt hlt, respMux_readPhase hb, phaseAfterReads_succ, Option.getD_some]
  | none =>
    have hle := List.getElem?_eq_none_iff.mp hb
    rw [respMux_of_no_romByte (no_romByte_phaseAfterReads hle), phaseAfterReads_succ, readNext, if_neg (by omega),
      Option.getD_none]

/-- The first byte of what is left of a response that is padded with 0x00. -/
theorem take_succ_drop_append_replicate (l : List Byte) (k n : Nat) :
    (l.drop k ++ List.replicate (n + 1) sentinel).take (n + 1)
      = l[k]?.getD sentinel :: (l.drop (k + 1) ++ List.replicate n sentinel).take n := by
  cases hb : l[k]? with
  | some b =>
    obtain ⟨hlt, rfl⟩ := List.getElem?_eq_some_iff.mp hb
    rw [List.drop_eq_getElem_cons hlt, List.cons_append, List.take_succ_cons, Option.getD_some]
    simp [List.take_append, List.take_replicate]
    omega
  | none =>
    have hle := List.getElem?_eq_none_iff.mp hb
    simp [List.drop_eq_nil_of_le hle, List.drop_eq_nil_of_le (Nat.le_succ_of_le hle), List.replicate_succ]

/-- `n` READs from position `k` return what is left of the response, and 0x00 past its end. -/
theorem yields_reads {reg : Register} {k n : Nat} {lines : List ScriptLine} {bytes : List Byte} {d' : Device}
    (hrest : Yields ⟨phaseAfterReads reg (k + n), reg⟩ lines bytes d') :
    Yields ⟨phaseAfterReads reg k, reg⟩ (List.replicate n .rd ++ lines)
      (((responseTable reg).drop k ++ List.replicate n sentinel).take n ++ bytes) d' := by
  induction n generalizing k with
  | zero => exact hrest
  | succ n ih =>
    rw [take_succ_drop_append_replicate]
    have hnext : Yields ⟨phaseAfterReads reg (k + 1 + n), reg⟩ lines bytes d' := by
      rwa [Nat.add_right_comm, Nat.add_assoc]
    exact yields_rd (respMux_phaseAfterReads reg k) (ih hnext)

/-- Rule R110: SELECT and FETCH, from any state of an instance. -/
theorem yields_select_fetch (d : Device) (b : Byte) (n : Nat) :
    Yields d (selectByte b ++ fetchBytes n)
      ((responseTable (decodeSelector b) ++ List.replicate n sentinel).take n)
      ⟨phaseAfterReads (decodeSelector b) n, decodeSelector b⟩ := by
  have hfetch : Yields ⟨phaseAfterReads (decodeSelector b) (0 + n), decodeSelector b⟩ [.stop none] []
      ⟨phaseAfterReads (decodeSelector b) n, decodeSelector b⟩ := by
    rw [Nat.zero_add]
    exact yields_stop (yields_nil _)
  have hreads := yields_reads hfetch
  rw [List.drop_zero, List.append_nil] at hreads
  exact yields_connect (yields_wr (yields_stop (yields_connect hreads)))

/-! ### READs without a CONNECT -/

theorem respMux_idle (reg : Register) :
    respMux reg .awaitingTransactionStart = (sentinel, .awaitingTransactionStart) := rfl

theorem yields_idle_reads (reg : Register) (n : Nat) :
    Yields ⟨.awaitingTransactionStart, reg⟩ (List.replicate n .rd) (List.replicate n sentinel)
      ⟨.awaitingTransactionStart, reg⟩ := by
  induction n with
  | zero => exact yields_nil _
  | succ n ih => exact yields_rd (respMux_idle reg) ih

/-- Rule R95: a READ of an idle instance puts it back as it was, so all instances stand. -/
theorem devices_of_idle_reads {s : State} {h : Handle} {reg : Register} (n : Nat)
    (hd : s.deviceAt h = some ⟨.awaitingTransactionStart, reg⟩) :
    ∃ t, runInputs s (scriptInputs h (List.replicate n .rd)) = .next t ∧ t.devices = s.devices := by
  induction n generalizing s with
  | zero => exact ⟨s.facing [], rfl, rfl⟩
  | succ n ih =>
    let s' := afterEvent s h (readDevice ⟨.awaitingTransactionStart, reg⟩)
    have hdevices : s'.devices = s.devices := set_eq_of_getElem?_eq_some hd
    obtain ⟨t, hrun, ht⟩ := ih (s := s') (by rwa [deviceAt_eq, hdevices])
    exact ⟨t, (runInputs_event (lineInput_event h (l := .rd) rfl) rfl hd).trans hrun, ht.trans hdevices⟩

/-! ### The reachable states as positions in a transaction -/

/-- A byte that selects the register (rule R47). -/
def selectorByteOf : Register → Byte
  | .measurement => measurementSelector
  | .productId => productIdSelector
  | .unrecognized => 0x00#8

@[simp] theorem decodeSelector_selectorByteOf (reg : Register) : decodeSelector (selectorByteOf reg) = reg := by
  cases reg <;> rfl

/-- Rule R21: each reachable state is one of a write transaction of at most three bytes, or of a fetch of fewer bytes
than there are read phases. -/
theorem position_of_mem_reachableDevices : ∀ d ∈ reachableDevices,
    d.phase = .writeByte1 ∨ (∃ n < 3, d.phase = writeNext^[n + 1] .writeByte1) ∨
      ∃ n < 6, d.phase = phaseAfterReads d.sel n := by
  decide

/-- Every reachable state is reached from every state by transactions. -/
theorem exists_yields_of_isReachable {d : Device} (h : d.isReachable = true) (d₀ : Device) :
    ∃ lines bytes, ScriptLine.reset ∉ lines ∧ Yields d₀ lines bytes d := by
  have hposition := position_of_mem_reachableDevices d ((mem_reachableDevices_iff d).mpr h)
  obtain ⟨phase, sel⟩ := d
  obtain ⟨b, rfl⟩ : ∃ b, sel = decodeSelector b := ⟨selectorByteOf sel, (decodeSelector_selectorByteOf sel).symm⟩
  obtain rfl | ⟨n, -, rfl⟩ | ⟨n, -, hn⟩ := hposition
  · exact ⟨[.wr b, .connect false none], _, by simp, yields_wr (yields_connect (yields_nil _))⟩
  · have hyields := yields_writeTransaction (written := List.replicate n b) d₀ b
    rw [List.length_replicate] at hyields
    exact ⟨_, _, by simp [writeTransaction], hyields⟩
  · obtain rfl : phase = phaseAfterReads (decodeSelector b) n := hn
    exact ⟨_, _, by simp [selectByte, fetchBytes], yields_select_fetch d₀ b n⟩

theorem lineInput_event?_isSome (h : Handle) {l : ScriptLine} (hl : l ≠ .reset) :
    (lineInput h l).event?.isSome = true := by
  have hinstr : ∃ i, lineInstr l = some i := by
    cases l with
    | reset => exact absurd rfl hl
    | _ => exact ⟨_, rfl⟩
  obtain ⟨i, hi⟩ := hinstr
  rw [lineInput_event h hi, Option.isSome_some]

/-- Rule R21: from reset, events lead to every reachable state. -/
theorem exists_run_of_isReachable {d : Device} (h : d.isReachable = true) :
    ∃ (inputs : List Input) (t : State), (∀ x ∈ inputs, x.event?.isSome = true) ∧
      runInputs State.reset inputs = .next t ∧ t.deviceAt ⟨0⟩ = some d := by
  obtain ⟨lines, bytes, hlines, hyields⟩ := exists_yields_of_isReachable h Device.reset
  obtain ⟨-, t, hrun, ht⟩ := hyields State.reset ⟨0⟩ rfl
  refine ⟨scriptInputs ⟨0⟩ lines, t, ?events, hrun, ht⟩
  case events =>
    intro x hx
    obtain ⟨l, hl, rfl⟩ := List.mem_map.mp hx
    exact lineInput_event?_isSome ⟨0⟩ fun hreset => hlines (hreset ▸ hl)

/-! ### The obligations -/

/-- Settles O29: the bytes are those of an idle instance, and each READ puts the instance back. -/
theorem idleReadsRepeat : Obligations.IdleReadsRepeat := by
  unfold Obligations.IdleReadsRepeat
  intro n s h reg hd
  exact ⟨(yields_idle_reads reg n s h hd).1, devices_of_idle_reads n hd⟩

/-- Settles O43: transactions reach the 22 states, and the invariant keeps every run inside them. -/
theorem reachableExactly : Obligations.ReachableExactly := by
  unfold Obligations.ReachableExactly
  have onlyReachable : ∀ (inputs : List Input) (t : State), runInputs State.reset inputs = .next t →
      ∀ d ∈ t.devices, d.isReachable = true :=
    fun inputs t hrun => (inv_of_runInputs (inv_resetWith Config.nDevices) hrun).reachable
  refine ⟨?reached, onlyReachable, reachableDevices, ?distinct, ?count, mem_reachableDevices_iff⟩
  case reached =>
    intro d
    constructor
    · rintro ⟨inputs, t, -, hrun, ht⟩
      exact onlyReachable inputs t hrun d (List.mem_of_getElem? ht)
    · exact exists_run_of_isReachable
  case distinct => decide
  case count => rfl

/-- Settles O46: the transactions are run line by line; STOP is one line that leaves the position as it is. -/
theorem stopKeepsPosition : Obligations.StopKeepsPosition := by
  unfold Obligations.StopKeepsPosition
  intro s h d hd
  refine ⟨?oneByte, ?twoBytes, ?twoReads⟩
  case oneByte => exact fun b => (yields_writeTransaction (written := []) d b s h hd).2
  case twoBytes => exact fun b1 b2 => (yields_writeTransaction (written := [b1]) d b2 s h hd).2
  case twoReads =>
    intro hsel
    obtain ⟨phase, sel⟩ := d
    obtain rfl : sel = .measurement := hsel
    have twoReads {lines bytes d'} (hrest : Yields ⟨.readByte3, .measurement⟩ lines bytes d') :
        Yields ⟨phase, .measurement⟩ (.connect true none :: .rd :: .rd :: .stop none :: lines)
          (0x65#8 :: 0xD5#8 :: bytes) d' :=
      yields_connect (yields_rd rfl (yields_rd rfl (yields_stop hrest)))
    obtain ⟨-, t, hrun, ht⟩ := twoReads (yields_nil _) s h hd
    exact ⟨t, hrun, ht, (twoReads (yields_rd rfl (yields_nil _)) s h hd).1⟩

/-- Settles O47: the WRITEs are the same with a CONNECT before them and without; only the phase differs. -/
theorem lastWrittenByteSelects : Obligations.LastWrittenByteSelects := by
  unfold Obligations.LastWrittenByteSelects
  intro s h d written b hd
  refine ⟨?transaction, ?bareWrites⟩
  case transaction =>
    rw [← iterate_writeNext_writeByte1]
    exact (yields_writeTransaction d b s h hd).2
  case bareWrites =>
    have hyields := yields_writes (written := written) (b := b) (p := d.phase) (reg := d.sel) (yields_nil _)
    rw [List.append_nil] at hyields
    obtain ⟨-, t, hrun, ht⟩ := hyields s h hd
    exact ⟨t, _, hrun, ht, rfl⟩

/-- Settles O48: the phase left is `phaseAfterReads`. -/
theorem selectThenFetch : Obligations.SelectThenFetch := by
  unfold Obligations.SelectThenFetch
  intro s h d b n hd
  exact yields_select_fetch d b n s h hd

end Sys2Proof.Machine
end

