-- ==== Sys2Proof/Proofs/SeparateInstances.lean ====
section
/-! Several instances and whole runs (rules R22, R37, R97, R104 to R107): a dutiful host is served to the end, events
for different instances commute, and what one instance answers depends on that instance alone. -/

namespace Sys2Proof.Machine

/-! ### A dutiful host -/

/-- The handle of a dutiful event names an instance (rule R104). -/
theorem index_lt_of_dutiful {n : Nat} {x : Input} {h : Handle} {i : Instr} (hx : x.dutiful n = true)
    (he : x.event? = some (h, i)) : h.index < n := by
  cases x with
  | create => cases he
  | selector b => cases he
  | overlap p q => cases he
  | cycle p =>
    simp only [Input.event?] at he
    split at he
    case isTrue hp =>
      obtain ⟨rfl, -⟩ := Prod.mk.inj (Option.some.inj he)
      simp only [Bool.and_eq_true, Bool.not_eq_true'] at hp
      simpa [Input.dutiful, hp] using hx
    case isFalse => cases he

/-- None of the ways a step stops is open to a dutiful host, and CREATE alone would change the number of instances. -/
theorem step_of_dutiful {s : State} {x : Input} {l : List Input} (hx : x.dutiful s.devices.length = true) :
    ∃ t, step (s.facing (x :: l)) = .next t ∧ t.devices.length = s.devices.length := by
  obtain ⟨t, hst⟩ | ⟨-, ⟨rest, hs⟩, -⟩ | ⟨⟨p, q, rest, hs⟩, -⟩ | ⟨y, rest, h, i, hs, he, hlen, -⟩ :=
    step_cases (s.facing (x :: l))
  · refine ⟨t, hst, ?_⟩
    cases stepEffect_of_next hst with
    | quiet _ devices => simp [devices]
    | create input =>
      obtain rfl := Option.some.inj input
      cases hx
    | reset _ _ devices => simp [devices]
    | event _ _ _ _ devices => simp [devices]
  · obtain ⟨rfl, -⟩ := List.cons.inj hs
    cases hx
  · obtain ⟨rfl, -⟩ := List.cons.inj hs
    cases hx
  · obtain ⟨rfl, -⟩ := List.cons.inj hs
    exact absurd (index_lt_of_dutiful hx he) hlen.not_gt

theorem runInputs_of_dutiful {inputs : List Input} {s : State}
    (hin : ∀ x ∈ inputs, x.dutiful s.devices.length = true) :
    ∃ t, runInputs s inputs = .next t ∧ t.inputs = [] ∧ t.devices.length = s.devices.length := by
  induction inputs generalizing s with
  | nil => exact ⟨s.facing [], rfl, rfl, rfl⟩
  | cons x l ih =>
    obtain ⟨u, hst, hu⟩ := step_of_dutiful (l := l) (hin x List.mem_cons_self)
    obtain ⟨t, hrun, hinputs, ht⟩ := ih (s := u) fun y hy => hu ▸ hin y (List.mem_cons_of_mem x hy)
    exact ⟨t, (runInputs_cons hst).trans hrun, hinputs, ht.trans hu⟩

/-! ### Events for different instances -/

theorem afterEvent_deviceAt_of_ne {s : State} {g h : Handle} {d : Device} (r : Device × Answer) (hne : h ≠ g)
    (hd : s.deviceAt g = some d) : (afterEvent s g r).deviceAt h = s.deviceAt h := by
  rw [deviceAt_eq, afterEvent_devices, getElem?_set_handle _ _ _ _ _ hd, if_neg hne, deviceAt_eq]

/-- Two events for different instances: each acts on its instance as if it had come alone. -/
theorem runInputs_two_events {s : State} {x y : Input} {g h : Handle} {i j : Instr} {e f : Device → Device × Answer}
    {d d' : Device} (hx : x.event? = some (g, i)) (hy : y.event? = some (h, j)) (hne : g ≠ h)
    (he : eventOn i = some e) (hf : eventOn j = some f) (hd : s.deviceAt g = some d) (hd' : s.deviceAt h = some d') :
    runInputs s [x, y] = .next ((afterEvent (afterEvent s g (e d)) h (f d')).facing []) := by
  have hsecond : (afterEvent s g (e d)).deviceAt h = some d' := by rw [afterEvent_deviceAt_of_ne _ hne.symm hd, hd']
  rw [runInputs_event hx he hd, runInputs_event hy hf hsecond, runInputs_nil]

/-! ### One instance alone -/

/-- Two systems that agree on the instance `h` and on what the step reads beside the instances. -/
structure AgreeOn (h : Handle) (s t : State) : Prop where
  inputs : s.inputs = t.inputs
  stage : s.stage = t.stage
  length : s.devices.length = t.devices.length
  device : s.deviceAt h = t.deviceAt h

/-- Both steps go on to systems that agree on `h`, with the same answers from it, or neither goes on. -/
inductive AgreeAfterStep (h : Handle) : Result → Result → Prop where
  | goOn {s t : State} (agree : AgreeOn h s t)
      (answers : answersOf h s.response.toList = answersOf h t.response.toList) : AgreeAfterStep h (.next s) (.next t)
  | stop {r r' : Result} (left : ∀ s, r ≠ .next s) (right : ∀ t, r' ≠ .next t) : AgreeAfterStep h r r'

section Agreement
variable {h : Handle} {s t : State}

theorem AgreeOn.facing (hag : AgreeOn h s t) (l : List Input) : AgreeOn h (s.facing l) (t.facing l) :=
  ⟨rfl, hag.stage, hag.length, hag.device⟩

theorem agreeOn_deliver (hag : AgreeOn h s t) (g : Handle) : AgreeOn h (deliver s g) (deliver t g) :=
  ⟨hag.inputs, rfl, hag.length, hag.device⟩

theorem agreeOn_idle (hag : AgreeOn h s t) : AgreeOn h (idle s) (idle t) :=
  ⟨hag.inputs, hag.stage, hag.length, hag.device⟩

theorem agreeOn_resetInstances (hag : AgreeOn h s t) : AgreeOn h (resetInstances s) (resetInstances t) where
  inputs := hag.inputs
  stage := rfl
  length := by simp [hag.length]
  device := by
    rw [deviceAt_eq, deviceAt_eq, resetInstances_devices, resetInstances_devices, List.getElem?_map, List.getElem?_map]
    exact congrArg (Option.map _) hag.device

theorem agreeAfter_createInstance (hag : AgreeOn h s t) :
    AgreeAfterStep h (createInstance s) (createInstance t) := by
  obtain ⟨hinputs, hstage, hlen, hdev⟩ := hag
  rw [deviceAt_eq, deviceAt_eq] at hdev
  cases hs : s.stage with
  | run =>
    rw [createInstance_of_run hs, createInstance_of_run (hstage ▸ hs)]
    exact .stop nofun nofun
  | initialisation =>
    rw [createInstance_of_initialisation hs, createInstance_of_initialisation (hstage ▸ hs)]
    refine .goOn ⟨hinputs, hstage, ?length, ?device⟩ rfl
    case length => simp [hlen]
    case device => simp [deviceAt_eq, List.getElem?_append, hlen, hdev]

/-- Rule R22: an event for an instance that exists. If that is `h`, it does and answers the same in both systems; if it
is another, `h` stands and answers nothing. -/
theorem agreeAfter_onInstance {d d' : Device} (e : Device → Device × Answer) (hag : AgreeOn h s t)
    (hctx : s.context = t.context) (hd : s.deviceAt s.context = some d) (hd' : t.deviceAt t.context = some d') :
    AgreeAfterStep h (onInstance s e) (onInstance t e) := by
  rw [onInstance_of_some e hd, onInstance_of_some e hd', ← hctx]
  have hd't : t.devices[s.context.index]? = some d' := by rwa [hctx]
  by_cases hh : h = s.context
  · subst hh
    obtain rfl : d = d' := Option.some.inj (hd.symm.trans (hag.device.trans hd't))
    refine .goOn ⟨hag.inputs, hag.stage, by simp [hag.length], ?same⟩ rfl
    case same => exact (getElem?_set_of_some _ hd).trans (getElem?_set_of_some _ hd't).symm
  · refine .goOn ⟨hag.inputs, hag.stage, by simp [hag.length], ?untouched⟩ (by simp [answersOf, Ne.symm hh])
    case untouched =>
      rw [deviceAt_eq, deviceAt_eq, getElem?_set_handle _ _ _ _ _ hd, getElem?_set_handle _ _ _ _ _ hd't, if_neg hh,
        if_neg hh]
      exact hag.device

theorem agreeAfter_exec_event {i : Instr} (hag : AgreeOn h s t) (hctx : s.context = t.context)
    (hi : isEvent i = true) : AgreeAfterStep h (exec i s) (exec i t) := by
  by_cases hlen : s.devices.length ≤ s.context.index
  · rw [exec_of_unknownHandle hi hlen, exec_of_unknownHandle hi (hag.length ▸ hctx ▸ hlen)]
    exact .stop nofun nofun
  · have hlt := not_le.mp hlen
    obtain ⟨e, he⟩ := eventOn_of_isEvent hi
    rw [exec_of_eventOn he, exec_of_eventOn he]
    exact agreeAfter_onInstance e hag hctx (List.getElem?_eq_getElem hlt)
      (List.getElem?_eq_getElem (hag.length ▸ hctx ▸ hlt))

/-- Rules R22, R97: what a step does to the instance `h`, and whether it goes on, depends on nothing else of the other
instances than their number. -/
theorem agreeAfter_step (hag : AgreeOn h s t) : AgreeAfterStep h (step s) (step t) := by
  rcases inputs_cases s with hs | ⟨x, rest, hs, hx⟩
  · rw [step_nil hs, step_nil (hag.inputs ▸ hs)]
    exact .goOn (agreeOn_idle hag) rfl
  · have ht : t.inputs = x :: rest := hag.inputs ▸ hs
    have htaken : AgreeOn h (s.facing rest) (t.facing rest) := hag.facing rest
    rcases hx with rfl | ⟨b, rfl⟩ | ⟨p, q, rfl⟩ | hr | ⟨g, i, he⟩ | ⟨p, rfl, hr, hv⟩
    · rw [step_create hs, step_create ht]
      exact agreeAfter_createInstance htaken
    · rw [step_selector hs, step_selector ht, exec_selectorRow, exec_selectorRow]
      exact .goOn ⟨rfl, hag.stage, hag.length, hag.device⟩ rfl
    · rw [step_overlap hs, step_overlap ht]
      exact .stop nofun nofun
    · rw [step_reset hs hr, step_reset ht hr]
      exact .goOn (agreeOn_resetInstances htaken) rfl
    · rw [step_event hs he, step_event ht he]
      exact agreeAfter_exec_event (agreeOn_deliver htaken g) rfl (isEvent_of_event? he)
    · rw [step_idleCycle hs hr hv, step_idleCycle ht hr hv]
      exact .goOn (agreeOn_idle htaken) rfl

end Agreement

theorem answersOf_transcript_of_agreeOn {h : Handle} (k : Nat) {s t : State} (hag : AgreeOn h s t) :
    answersOf h (transcript k s) = answersOf h (transcript k t) := by
  induction k generalizing s t with
  | zero => rfl
  | succ k ih =>
    have hstep := agreeAfter_step hag
    generalize hs : step s = r, ht : step t = r' at hstep
    cases hstep with
    | goOn agree answers =>
      rw [transcript_succ k hs, transcript_succ k ht, answersOf_append, answersOf_append, answers, ih agree]
    | stop left right =>
      rw [transcript_of_stop k fun _ => hs ▸ left _, transcript_of_stop k fun _ => ht ▸ right _]

/-! ### The obligations -/

/-- Settles O50, by induction on the inputs. -/
theorem dutifulHostIsServed : Obligations.DutifulHostIsServed := by
  unfold Obligations.DutifulHostIsServed
  exact fun _ _ => runInputs_of_dutiful

/-- Settles O51: agreement on the instance is kept step by step. -/
theorem instanceIsolation : Obligations.InstanceIsolation := by
  unfold Obligations.InstanceIsolation
  intro k s t h hinputs hstage hlen hdev
  exact answersOf_transcript_of_agreeOn k ⟨hinputs, hstage, hlen, hdev⟩

/-- Settles O52: both orders complete, and writes at two different positions of the list commute. -/
theorem eventsForInstancesCommute : Obligations.EventsForInstancesCommute := by
  unfold Obligations.EventsForInstancesCommute
  intro s x y g h i j hx hy hne hg hh
  obtain ⟨e, he⟩ := eventOn_of_isEvent (isEvent_of_event? hx)
  obtain ⟨f, hf⟩ := eventOn_of_isEvent (isEvent_of_event? hy)
  have hd : s.deviceAt g = some _ := List.getElem?_eq_getElem hg
  have hd' : s.deviceAt h = some _ := List.getElem?_eq_getElem hh
  have hindex : g.index ≠ h.index := fun heq => hne (by cases g; cases h; congr)
  exact ⟨_, _, runInputs_two_events hx hy hne he hf hd hd', runInputs_two_events hy hx hne.symm hf he hd' hd,
    List.set_comm _ _ hindex⟩

end Sys2Proof.Machine
end
